-- ==== Sys2Proof/Word.lean ====
section
/-!
DEFINITION. The protocol's plain data: bytes, the enumerated fields of a Message, the Message record,
the decode-error kinds and the result of Decode (spec/10_state.md, spec/60_exceptions.md).
Every computation over them stands in Sys2Proof/Decode.lean or under Sys2Proof/Machine/.
-/

namespace Sys2Proof

/-- A byte, 0..255, bit 7 the most significant (00_scope.md R15). -/
abbrev Byte := BitVec 8

/-- A pin number, 0..31 (10_state.md R30, R48). -/
abbrev Pin := BitVec 5

/-- The protocol revision field, 0..7 (10_state.md R30). -/
abbrev Version := BitVec 3

/-- The `io` field: the pin's direction for this transaction (10_state.md R30). -/
inductive Io where
  | input
  | output
deriving DecidableEq, Repr

/-- The `rw` field: the operation a Message declares (10_state.md R30). -/
inductive Rw where
  | read
  | write
deriving DecidableEq, Repr

/-- A Message, request or response (10_state.md R30). `version`, `pin` and `length` have the range
0..255 that Encode admits as operands (40_codec.md R126); `Message.wf` says when they have the
field's own width. -/
structure Message where
  version  : Byte
  pin      : Byte
  io       : Io
  rw       : Rw
  length   : Byte
  data     : List Byte
  checksum : Byte
deriving DecidableEq, Repr

/-- The four error kinds Decode raises (60_exceptions.md R240). -/
inductive DecodeError where
  | frameTooShort
  | invalidStart
  | invalidEnd
  | checksumMismatch
deriving DecidableEq, Repr

/-- What Decode answers: `Ok(m)` or `Err(k)` (10_state.md R42). -/
inductive DecodeResult where
  | ok (m : Message)
  | err (k : DecodeError)
deriving DecidableEq, Repr

/-- The five commands a decoded request selects (30_encoding.md R98). -/
inductive Command where
  | read
  | writeOn
  | writeOff
  | writeInvalid
  | writeNodata
deriving DecidableEq, Repr

end Sys2Proof
end

