-- ==== Sys2Proof/Config.lean ====
section
/-!
DEFINITION. The configuration parameters of 00_scope.md R12, the reply of a transport write, and the
free values that stand for the environment's draws (00_scope.md R13).
-/

namespace Sys2Proof

/-- `P_FRAMING`: how a frame ends (41_framing.md R161). -/
inductive Framing where
  | lengthAware
  | sentinel
deriving DecidableEq, Repr

/-- `P_DECODE_EXCESS`: what Decode does with bytes past offset `4 + length` (40_codec.md R137). -/
inductive Excess where
  | ignore
  | reject
deriving DecidableEq, Repr

/-- `P_DIAG` as a table: for each decode-error kind, no diagnostic frame or the Message to send
(60_exceptions.md R248). -/
structure DiagTable where
  frameTooShort    : Option Message
  invalidStart     : Option Message
  invalidEnd       : Option Message
  checksumMismatch : Option Message
deriving DecidableEq, Repr

/-- The parameters a model takes as arguments (00_scope.md R12). They are fixed for a run
(70_reset_and_hazards.md R274). -/
structure Config where
  /-- `P_FRAMING`. -/
  framing        : Framing
  /-- `P_ACC_CAP`: `none` is `UNBOUNDED`; read in `SENTINEL` mode only. -/
  accCap         : Option Nat
  /-- `P_IDLE_TIMEOUT`: `true` is `ENABLED`. -/
  idleTimeout    : Bool
  /-- `P_DECODE_EXCESS`. -/
  decodeExcess   : Excess
  /-- `P_WRITE_CONFIGURE`. -/
  writeConfigure : Bool
  /-- `P_ACK_HIGH`, an OPEN parameter of the spec. -/
  ackHigh        : List Byte
  /-- `P_ACK_LOW`, an OPEN parameter of the spec. -/
  ackLow         : List Byte
  /-- `P_DIAG`, an OPEN parameter of the spec. -/
  diag           : DiagTable
deriving DecidableEq, Repr

namespace Config

/-- The reference configuration: every default of 00_scope.md R12. -/
def reference : Config where
  framing        := .lengthAware
  accCap         := some 68
  idleTimeout    := true
  decodeExcess   := .ignore
  writeConfigure := true
  ackHigh        := [0x31#8]
  ackLow         := [0x30#8]
  diag           := ⟨none, none, none, none⟩

/-- The original configuration of 00_scope.md R12: sentinel framing, no cap, no timeout. -/
def original : Config :=
  { reference with framing := .sentinel, accCap := none, idleTimeout := false }

end Config

/-- What a transport write returns: `Ok`, or `Fail(k)` with k the number of bytes that went out
(20_memory.md R64). -/
inductive TxReply where
  | ok
  | fail (k : Nat)
deriving DecidableEq, Repr, Inhabited

/-- FREE VALUE (log entry 3): the level the n-th draw returns when the environment's list of levels
is empty. Nothing constrains it (20_memory.md R66; 93_implementation_defined.md U14). -/
opaque Config.freeLevel : Nat → Bool

/-- FREE VALUE (log entry 3): the transport's reply at the n-th draw when the environment's list of
replies is empty. Nothing constrains it (20_memory.md R64; 93_implementation_defined.md U15). -/
opaque Config.freeTxReply : Nat → TxReply

end Sys2Proof
end

