-- ==== Sys2Proof/Machine/State.lean ====
section
/-!
DEFINITION. The machine's state as plain data, its events, its faults and refusals, and the state
after reset (spec/10_state.md, spec/00_scope.md R12 to R14, spec/70_reset_and_hazards.md R270).
-/

namespace Sys2Proof.Machine

/-- `S.phase` (10_state.md R34, R35). -/
inductive Phase where
  | scanning
  | accumulating
  | complete
deriving DecidableEq, Repr

/-- An input event (00_scope.md R14). -/
inductive Input where
  /-- `RxByte(b)`. -/
  | rxByte (b : Byte)
  /-- `IdleTimeout`. -/
  | idleTimeout
  /-- `Reset`. When it stands next in a state whose phase is Complete, idle timeouts aside, it lands
  inside the processing of the frame, after `after` output events (70_reset_and_hazards.md R271,
  micro-step form; log entry 6). In the other phases `after` is not read. -/
  | reset (after : Nat)
deriving DecidableEq, Repr

/-- An event of the block's observable behaviour: an input it took or an output it emitted, with the
environment's reply where there is one (00_scope.md R14, R18; 20_memory.md R63 to R68). -/
inductive Event where
  | rxByte (b : Byte)
  | idleTimeout
  | reset
  | configure (pin : Pin) (dir : Io)
  | setHigh (pin : Pin)
  | setLow (pin : Pin)
  | read (pin : Pin) (level : Bool)
  | txWrite (bytes : List Byte) (reply : TxReply)
  | signalError
deriving DecidableEq, Repr

/-- `dir[p]` of the environment's GPIO copy (10_state.md R45). -/
inductive PinDir where
  | unconfigured
  | input
  | output
deriving DecidableEq, Repr

/-- `lvl[p]` of the environment's GPIO copy (10_state.md R45). -/
inductive PinLevel where
  | unknown
  | low
  | high
deriving DecidableEq, Repr

/-- What the environment's GPIO copy holds for one pin (10_state.md R45). -/
structure PinState where
  dir : PinDir
  lvl : PinLevel
deriving DecidableEq, Repr

/-- The block's state, all of it: S and T (10_state.md R34, R41). Neither the configuration nor the
draws are part of it (R50); the block's step relation takes them as arguments (`blockStep`). -/
@[ext]
structure Block where
  /-- `S.phase`. -/
  phase   : Phase
  /-- `S.buf`, the candidate frame. -/
  buf     : List Byte
  /-- `T.outcome`; `none` is "no value". -/
  outcome : Option DecodeResult
  /-- `T.resp`; `none` is "no value". -/
  resp    : Option Message
deriving DecidableEq, Repr

/-- The environment's draws still to come (00_scope.md R13), an argument of the block's step relation. -/
@[ext]
structure Draws where
  /-- The levels the coming GPIO reads return. -/
  levelDraws : List Bool
  /-- The replies of the coming transport writes. -/
  txDraws    : List TxReply
  /-- The model's own: how many draws were taken; the index of the free values (log entry 3). -/
  drawCount  : Nat
deriving DecidableEq, Repr

/-- The closed machine, which the host's one-argument step runs: the block's state, the arguments of its
step relation (configuration, draws, inputs; log entries 1, 3 and 5), and what the environment sees of
it (GPIO copy, events). -/
@[ext]
structure State extends Block, Draws where
  /-- Argument: the configuration (00_scope.md R12); no step writes it (70_reset_and_hazards.md R274). -/
  cfg        : Config
  /-- Environment: the input events to come, in its order (20_memory.md R62, 60_exceptions.md R244). -/
  inputs     : List Input
  /-- Environment: the GPIO copy (10_state.md R45); no block rule reads it. -/
  pins       : Vector PinState 32
  /-- The events so far, oldest first (00_scope.md R14, R18). -/
  trace      : List Event
deriving DecidableEq, Repr

/-- Why the machine stops with a fault. -/
inductive Fault where
  /-- A read of `T.outcome` or `T.resp` while the phase is not Complete: "a fault and not a value"
  (10_state.md R41, 93_implementation_defined.md U3). Raised by `readOutcome` and `readResp`. Safe. -/
  | transientOutsideComplete
  /-- A read of `T.outcome` or `T.resp` in Complete before it is written (10_state.md R41).
  Raised by `readOutcome` and `readResp`. Safe. -/
  | transientUnwritten
deriving DecidableEq, Repr

/-- Why an instruction gets no meaning. -/
inductive Refusal where
  /-- `exec`'s arm of an instruction that has no meaning yet. Safe. -/
  | notModelled (mnemonic : String)
  /-- Encode of a Message whose data length differs from its length field: "it has no meaning, and a
  model refuses it" (40_codec.md R126, 93_implementation_defined.md U4). Raised by `send` and
  `onDecodeError`, only in a configuration outside the domain of 00_scope.md R12. Safe. -/
  | encodeLengthMismatch
deriving DecidableEq, Repr

/-- The state right after `Reset` or power-on, nothing received yet: the block's registers as
10_state.md R49 and 70_reset_and_hazards.md R275 give them; the configuration is the reference
configuration of 00_scope.md R12 (log entry 2); the environment has nothing listed (log entries 3, 5,
8 and 9). -/
def State.reset : State where
  cfg        := Config.reference
  phase      := .scanning
  buf        := []
  outcome    := none
  resp       := none
  inputs     := []
  levelDraws := []
  txDraws    := []
  drawCount  := 0
  pins       := Vector.replicate 32 ⟨.unconfigured, .unknown⟩
  trace      := []

end Sys2Proof.Machine
end

