-- ==== Sys2Proof/Machine/Flags.lean ====
section
/-!
DEFINITION. The block has no condition codes, status flags or status registers (10_state.md R42, R43).
What takes their place: the transient registers T.outcome and T.resp with their guarded reads (R41),
and the ordinals of the error causes (60_exceptions.md R241, R242).
-/

namespace Sys2Proof.Machine

/-- The guard on a transient register: readable only in Complete and only after it is written
(10_state.md R41). -/
def readTransient {α : Type} (phase : Phase) (value : Option α) : Except Fault α :=
  if phase = .complete then
    match value with
    | some v => .ok v
    | none   => .error .transientUnwritten
  else .error .transientOutsideComplete

/-- Read `T.outcome` (10_state.md R41). -/
def readOutcome (s : State) : Except Fault DecodeResult := readTransient s.phase s.outcome

/-- Read `T.resp` (10_state.md R41). -/
def readResp (s : State) : Except Fault Message := readTransient s.phase s.resp

/-- Write `T.outcome` (41_framing.md R176). -/
def writeOutcome (r : DecodeResult) (s : State) : State := { s with outcome := some r }

/-- Write `T.resp` (42_dispatch.md R210). -/
def writeResp (m : Message) (s : State) : State := { s with resp := some m }

/-- The spec's ordinal of a decode-error kind; never transmitted, read by no rule
(60_exceptions.md R242). -/
def decodeErrorCode : DecodeError → Nat
  | .frameTooShort    => 1
  | .invalidStart     => 2
  | .invalidEnd       => 3
  | .checksumMismatch => 4

/-- The ordinals of `Overflow`, `Timeout` and `WriteFail` (60_exceptions.md R241, R242). -/
def overflowCode : Nat := 5
/-- See `overflowCode`. -/
def timeoutCode : Nat := 6
/-- See `overflowCode`. -/
def writeFailCode : Nat := 7

end Sys2Proof.Machine
end

