-- ==== Sys2Proof/Syntax.lean ====
section
/-!
DEFINITION. The instructions: one constructor per row of spec/opcode_table.json, that is per command
a decoded request frame selects (30_encoding.md R98, R100), with the operands of R101 and every data
byte the frame carries.
-/

namespace Sys2Proof

/-- A decoded request. `version`, `pin` and `io` are operands of every command (30_encoding.md R101).
The data bytes a command ignores are kept, since they belong to the frame (R105). -/
inductive Instr where
  /-- READ (R201): any data, ignored. -/
  | read (version : Version) (pin : Pin) (io : Io) (data : List Byte)
  /-- WRITE_ON (R202): first data byte 0x31, then `rest`, ignored. -/
  | writeOn (version : Version) (pin : Pin) (io : Io) (rest : List Byte)
  /-- WRITE_OFF (R203): first data byte 0x30, then `rest`, ignored. -/
  | writeOff (version : Version) (pin : Pin) (io : Io) (rest : List Byte)
  /-- WRITE_INVALID (R204): first data byte `d0`, neither 0x30 nor 0x31, then `rest`, ignored. -/
  | writeInvalid (version : Version) (pin : Pin) (io : Io) (d0 : Byte) (rest : List Byte)
  /-- WRITE_NODATA (R207): no data byte. -/
  | writeNodata (version : Version) (pin : Pin) (io : Io)
deriving DecidableEq, Repr

/-- The command of an instruction (30_encoding.md R98). -/
def Instr.command : Instr → Command
  | .read _ _ _ _           => .read
  | .writeOn _ _ _ _        => .writeOn
  | .writeOff _ _ _ _       => .writeOff
  | .writeInvalid _ _ _ _ _ => .writeInvalid
  | .writeNodata _ _ _      => .writeNodata

/-- The frame notation's shorthand `ON p` (30_encoding.md R108): version 1, Output, data 31. -/
def Instr.on (p : Pin) : Instr := .writeOn 1#3 p .output []

/-- The shorthand `OFF p` (30_encoding.md R108). -/
def Instr.off (p : Pin) : Instr := .writeOff 1#3 p .output []

/-- The shorthand `GET p, d` (30_encoding.md R108). -/
def Instr.get (p : Pin) (d : Io) : Instr := .read 1#3 p d []

end Sys2Proof
end

