-- ==== Sys2Proof/WellFormed.lean ====
section
/-!
DEFINITION. Which instructions a frame can carry: the payload bound of 30_encoding.md R97 and the
command byte of R100. The widths of `version`, `pin` and `io` are in the types.
-/

namespace Sys2Proof

/-- A frame exists that decodes to the instruction: at most 63 payload bytes (30_encoding.md R97), and
the first byte of a WRITE_INVALID is no other command's (R100). -/
def Instr.wf : Instr → Bool
  | .read _ _ _ data           => decide (data.length ≤ 63)
  | .writeOn _ _ _ rest        => decide (rest.length ≤ 62)
  | .writeOff _ _ _ rest       => decide (rest.length ≤ 62)
  | .writeInvalid _ _ _ d0 rest => decide (d0 ≠ 0x31#8) && decide (d0 ≠ 0x30#8) && decide (rest.length ≤ 62)
  | .writeNodata _ _ _         => true

end Sys2Proof
end

