-- ==== Sys2Proof/Decode.lean ====
section
/-!
DEFINITION. The Frame Codec (spec/40_codec.md): checksum, header packing and unpacking, Encode and
Decode; and the command map (spec/30_encoding.md): from a decoded Message to the instruction, the
instruction's request Message and frame, the command key of the opcode table.
Decode is total over every byte list and rejects by name.
-/

namespace Sys2Proof

/-! ### Constants (00_scope.md R11) -/

/-- Start marker. -/
def stx : Byte := 0x02#8
/-- End marker. -/
def etx : Byte := 0x03#8
/-- Write payload command ON, ASCII '1'. -/
def cmdOn : Byte := 0x31#8
/-- Write payload command OFF, ASCII '0'. -/
def cmdOff : Byte := 0x30#8
/-- Read response payload for a high line. -/
def levelHighDigit : Byte := 0x31#8
/-- Read response payload for a low line. -/
def levelLowDigit : Byte := 0x30#8
/-- ASCII bytes of "invalid data" (byte values: general knowledge in the spec, log entry 12). -/
def txtInvalid : List Byte :=
  [0x69#8, 0x6E#8, 0x76#8, 0x61#8, 0x6C#8, 0x69#8, 0x64#8, 0x20#8, 0x64#8, 0x61#8, 0x74#8, 0x61#8]
/-- ASCII bytes of "no data" (byte values: general knowledge in the spec, log entry 12). -/
def txtNodata : List Byte :=
  [0x6E#8, 0x6F#8, 0x20#8, 0x64#8, 0x61#8, 0x74#8, 0x61#8]
/-- The protocol revision a host should send; no rule of the block reads it (30_encoding.md R104). -/
def versionCurrent : Version := 1#3
/-- Largest payload. -/
def maxPayload : Nat := 63
/-- Bytes of a frame that are not payload. -/
def frameOverhead : Nat := 5
/-- Smallest frame. -/
def minFrame : Nat := 5
/-- Largest frame. -/
def maxFrame : Nat := 68
/-- Decode's first check (40_codec.md R131). -/
def decodeFloor : Nat := 4

/-! ### Checksum (40_codec.md R120, R121) -/

/-- `Input` = 0, `Output` = 1 (00_scope.md R11). -/
def Io.code : Io → Nat
  | .input  => 0
  | .output => 1

/-- `Read` = 0, `Write` = 1 (00_scope.md R11). -/
def Rw.code : Rw → Nat
  | .read  => 0
  | .write => 1

/-- `sum8(xs)`: the exact sum, then modulo 256 (00_scope.md R16). -/
def sum8 (xs : List Nat) : Byte := BitVec.ofNat 8 xs.sum

/-- `Checksum` over the unpacked field values, then the data (40_codec.md R120). -/
def checksum (version pin : Byte) (io : Io) (rw : Rw) (length : Byte) (data : List Byte) : Byte :=
  sum8 ([version.toNat, pin.toNat, io.code, rw.code, length.toNat] ++ data.map BitVec.toNat)

/-- The checksum a Message's own fields give. -/
def Message.sum (m : Message) : Byte :=
  Sys2Proof.checksum m.version m.pin m.io m.rw m.length m.data

/-- `wf(m)` (10_state.md R31). -/
def Message.wf (m : Message) : Bool :=
  decide (m.pin.toNat < 32) && decide (m.version.toNat < 8) && decide (m.length.toNat < 64) &&
    decide (m.data.length = m.length.toNat) && decide (m.checksum = m.sum)

/-! ### Header packing and unpacking (40_codec.md R122 to R125) -/

/-- `PackH1` (40_codec.md R122): high bits of an out-of-range field are lost. -/
def packH1 (version pin : Byte) : Byte := (version <<< 5) ||| (pin &&& 0x1F#8)

/-- `PackH2` (40_codec.md R123). -/
def packH2 (io : Io) (rw : Rw) (length : Byte) : Byte :=
  (BitVec.ofNat 8 io.code <<< 7) ||| (BitVec.ofNat 8 rw.code <<< 6) ||| (length &&& 0x3F#8)

/-- `version` of header byte 1 (40_codec.md R124). -/
def h1Version (h1 : Byte) : Byte := (h1 >>> 5) &&& 0x07#8

/-- `pin` of header byte 1 (40_codec.md R124). -/
def h1Pin (h1 : Byte) : Byte := h1 &&& 0x1F#8

/-- `io` of header byte 2 (40_codec.md R125). -/
def h2Io (h2 : Byte) : Io := if (h2 >>> 7) &&& 1#8 = 1#8 then .output else .input

/-- `rw` of header byte 2 (40_codec.md R125). -/
def h2Rw (h2 : Byte) : Rw := if (h2 >>> 6) &&& 1#8 = 1#8 then .write else .read

/-- `length` of header byte 2 (40_codec.md R125). -/
def h2Length (h2 : Byte) : Byte := h2 &&& 0x3F#8

/-! ### Encode (40_codec.md R126 to R129) -/

/-- The frame of a Message (40_codec.md R127): markers, packed header, data verbatim, and the checksum
recomputed from the values as given, before masking (R128). `m.checksum` is not read. -/
def frameBytes (m : Message) : List Byte :=
  [stx, packH1 m.version m.pin, packH2 m.io m.rw m.length] ++ m.data ++ [m.sum, etx]

/-- `Encode(m)`: admitted only when the data length equals the length field; no frame otherwise
(40_codec.md R126). -/
def encodeMsg (m : Message) : Option (List Byte) :=
  if m.data.length = m.length.toNat then some (frameBytes m) else none

/-! ### Decode (40_codec.md R130 to R140) -/

/-- Decode after the marker checks: the header is unpacked (R134), then the bound (R135), the excess
rule (R137) and the checksum (R136) are checked. `n` is the buffer's length and `body` the bytes from
offset 3. -/
def decodeBody (x : Excess) (n : Nat) (h1 h2 : Byte) (body : List Byte) : DecodeResult :=
  let length := h2Length h2
  if n < 3 + length.toNat + 2 then .err .frameTooShort
  else if n ≠ 5 + length.toNat ∧ x = .reject then .err .invalidEnd
  else
    match body.drop length.toNat with
    -- the bound check leaves at least two bytes here, so the list is never empty
    | [] => .err .frameTooShort
    | received :: _ =>
      let data := body.take length.toNat
      let c := checksum (h1Version h1) (h1Pin h1) (h2Io h2) (h2Rw h2) length data
      if c ≠ received then .err .checksumMismatch
      else .ok
        { version := h1Version h1, pin := h1Pin h1, io := h2Io h2, rw := h2Rw h2,
          length := length, data := data, checksum := c }

/-- `Decode(buf)` (40_codec.md R130): floor (R131), start marker (R132), end marker (R133), then
`decodeBody`. Total over every byte list (R139). -/
def decode (x : Excess) (buf : List Byte) : DecodeResult :=
  if buf.length < decodeFloor then .err .frameTooShort
  else if buf.head? ≠ some stx then .err .invalidStart
  else if buf.getLast? ≠ some etx then .err .invalidEnd
  else
    match buf with
    | _ :: h1 :: h2 :: body => decodeBody x buf.length h1 h2 body
    -- shorter than the floor: already answered above
    | _ => .err .frameTooShort

/-! ### The command map (30_encoding.md R98 to R101) -/

/-- `command(m)` as the spec's pseudocode selects it (30_encoding.md R98). -/
def Message.command (m : Message) : Command :=
  if m.rw = .read then .read
  else if m.length = 0#8 then .writeNodata
  else if m.data.head? = some cmdOn then .writeOn
  else if m.data.head? = some cmdOff then .writeOff
  else .writeInvalid

/-- The instruction a decoded Message is: its command with its operands (30_encoding.md R98, R101).
A Write with no data byte is WRITE_NODATA: on a well-formed Message that is `length = 0`. -/
def Instr.ofMessage (m : Message) : Instr :=
  let v : Version := m.version.setWidth 3
  let p : Pin := m.pin.setWidth 5
  match m.rw with
  | .read => .read v p m.io m.data
  | .write =>
    match m.data with
    | [] => .writeNodata v p m.io
    | d0 :: rest =>
      if d0 = cmdOn then .writeOn v p m.io rest
      else if d0 = cmdOff then .writeOff v p m.io rest
      else .writeInvalid v p m.io d0 rest

/-- The instruction decoder: Decode, then the command map. -/
def decodeInstr (x : Excess) (buf : List Byte) : Except DecodeError Instr :=
  match decode x buf with
  | .ok m  => .ok (Instr.ofMessage m)
  | .err k => .error k

/-! ### The encoder of instructions -/

/-- A Message of in-range header fields and a payload, its length and checksum computed (the form of
42_dispatch.md R210, and of a request in 30_encoding.md R108). -/
def mkMessage (version : Version) (pin : Pin) (io : Io) (rw : Rw) (payload : List Byte) : Message :=
  let v : Byte := version.setWidth 8
  let p : Byte := pin.setWidth 8
  let l : Byte := BitVec.ofNat 8 payload.length
  { version := v, pin := p, io := io, rw := rw, length := l, data := payload,
    checksum := checksum v p io rw l payload }

/-- The request Message an instruction is decoded from (30_encoding.md R100, R101). -/
def Instr.request : Instr → Message
  | .read v p io data            => mkMessage v p io .read data
  | .writeOn v p io rest         => mkMessage v p io .write (cmdOn :: rest)
  | .writeOff v p io rest        => mkMessage v p io .write (cmdOff :: rest)
  | .writeInvalid v p io d0 rest => mkMessage v p io .write (d0 :: rest)
  | .writeNodata v p io          => mkMessage v p io .write []

/-- The frame of an instruction: the bytes of its request (30_encoding.md R90). -/
def encode (i : Instr) : List Byte := frameBytes i.request

/-! ### The command key of the opcode table (30_encoding.md R99, R100) -/

/-- `K = (h1 << 16) | (h2 << 8) | d0`, `d0` taken as 0 when there is no data (30_encoding.md R99). -/
def commandKey (m : Message) : Nat :=
  (packH1 m.version m.pin).toNat <<< 16 ||| (packH2 m.io m.rw m.length).toNat <<< 8 |||
    (m.data.head?.getD 0#8).toNat

/-- The row's mask (30_encoding.md R100). -/
def Command.mask : Command → Nat
  | .read         => 0x004000
  | .writeOn      => 0x0040FF
  | .writeOff     => 0x0040FF
  | .writeInvalid => 0x004000
  | .writeNodata  => 0x007F00

/-- The row's match word (30_encoding.md R100). -/
def Command.matchWord : Command → Nat
  | .read         => 0x000000
  | .writeOn      => 0x004031
  | .writeOff     => 0x004030
  | .writeInvalid => 0x004000
  | .writeNodata  => 0x004000

/-- The row's constraint on `length` and `d0` (30_encoding.md R100). -/
def Command.constraint (c : Command) (m : Message) : Bool :=
  match c with
  | .read         => true
  | .writeOn      => decide (1 ≤ m.length.toNat)
  | .writeOff     => decide (1 ≤ m.length.toNat)
  | .writeInvalid => decide (1 ≤ m.length.toNat) && decide (m.data.head? ≠ some cmdOn) &&
                       decide (m.data.head? ≠ some cmdOff)
  | .writeNodata  => decide (m.length.toNat = 0)

/-- The row of the opcode table matches the Message (30_encoding.md R99). -/
def Command.selects (c : Command) (m : Message) : Bool :=
  decide (commandKey m &&& c.mask = c.matchWord) && c.constraint m

/-! ### Words as the opcode table numbers them -/

/-- The frame of a command key (bit 23 the top bit of h1, bit 0 the low bit of d0, as the table numbers
them), all data bytes after the first being zero. A key whose length field is 0 and whose d0 is not 0
is no request's key (R99): the row's constraint `length >= 1` then sets the length field to 1
(log entry 14, DESIGN CHOICE about this listing device, which the block does not compute). -/
def tableFrame (nbits w : Nat) : List Byte :=
  let k := w % 2 ^ nbits
  let h1 : Byte := BitVec.ofNat 8 (k / 65536)
  let h2 : Byte := BitVec.ofNat 8 (k / 256)
  let d0 : Byte := BitVec.ofNat 8 k
  let field := (h2Length h2).toNat
  let len := if d0 = 0#8 then field else max field 1
  let data := if len = 0 then [] else d0 :: List.replicate (len - 1) 0#8
  frameBytes (mkMessage ((h1Version h1).setWidth 3) ((h1Pin h1).setWidth 5) (h2Io h2) (h2Rw h2) data)

/-- The instruction the decoder reads from an opcode-table word (the host's interface). -/
def decodeTableWord (nbits w : Nat) : Option Instr :=
  match decodeInstr .ignore (tableFrame nbits w) with
  | .ok i    => some i
  | .error _ => none

end Sys2Proof
end

