-- ==== Sys2Proof/Machine/Operands.lean ====
section
/-!
DEFINITION. What the commands' operands become: the direction of `Configure`, the digit of a read
answer, the response Message (spec/42_dispatch.md R201, R208 to R210), the domain of the configuration
(00_scope.md R12), the frame length the scanner waits for and the buffer's capacity
(10_state.md R38, R40).
-/

namespace Sys2Proof.Machine

/-- The pin direction a `Configure` sets: `Input` if io = 0, `Output` if io = 1 (20_memory.md R65). -/
def dirOf : Io → PinDir
  | .input  => .input
  | .output => .output

/-- The payload digit of a read answer (42_dispatch.md R201). -/
def levelDigit (level : Bool) : Byte := if level then levelHighDigit else levelLowDigit

/-- `Resp(m, rw', payload)` (42_dispatch.md R210): version, pin and io are the request's; length and
checksum are computed. -/
def respFor (version : Version) (pin : Pin) (io : Io) (rw : Rw) (payload : List Byte) : Message :=
  mkMessage version pin io rw payload

/-- `P_DIAG(k)` (60_exceptions.md R248). -/
def diagFor (c : Config) (k : DecodeError) : Option Message :=
  match k with
  | .frameTooShort    => c.diag.frameTooShort
  | .invalidStart     => c.diag.invalidStart
  | .invalidEnd       => c.diag.invalidEnd
  | .checksumMismatch => c.diag.checksumMismatch

/-- No diagnostic frame, or a well-formed one (60_exceptions.md R248). -/
def diagOk : Option Message → Bool
  | none   => true
  | some d => d.wf

/-- The values 00_scope.md R12 allows: a cap of at least 5, acknowledgements of 1 to 63 bytes, and
well-formed diagnostic Messages. -/
def configOk (c : Config) : Bool :=
  (match c.accCap with
    | none   => true
    | some n => decide (5 ≤ n)) &&
  decide (1 ≤ c.ackHigh.length) && decide (c.ackHigh.length ≤ 63) &&
  decide (1 ≤ c.ackLow.length) && decide (c.ackLow.length ≤ 63) &&
  diagOk c.diag.frameTooShort && diagOk c.diag.invalidStart &&
  diagOk c.diag.invalidEnd && diagOk c.diag.checksumMismatch

/-- `expected(buf)` (10_state.md R40); `none` is infinity. -/
def expectedLength (buf : List Byte) : Option Nat :=
  match buf with
  | _ :: _ :: h2 :: _ => some (5 + (h2Length h2).toNat)
  | _ => none

/-- `BUF_MAX` (10_state.md R38); `none` is "no bound". -/
def bufMax (c : Config) : Option Nat :=
  match c.framing with
  | .lengthAware => some maxFrame
  | .sentinel    => c.accCap

/-- A transport write's reply for a frame of `len` bytes: on `Fail(k)` fewer than `len` bytes went out,
`0 ≤ k < len` (20_memory.md R64). A listed or free k outside that range is taken modulo `len`
(log entry 4). -/
def boundReply (len : Nat) : TxReply → TxReply
  | .ok     => .ok
  | .fail k => .fail (k % len)

/-- The bytes an event put on the link: all of a frame on `Ok`, its first k bytes on `Fail(k)`
(20_memory.md R64). -/
def Event.delivered : Event → List Byte
  | .txWrite bytes .ok       => bytes
  | .txWrite bytes (.fail k) => bytes.take k
  | _                        => []

/-- The bytes on the link after a trace: the block transmits no byte outside a `TxWrite`
(20_memory.md R63). -/
def wire (trace : List Event) : List Byte := trace.flatMap Event.delivered

/-- An output event of the block (00_scope.md R14). -/
def Event.isOutput : Event → Bool
  | .rxByte _     => false
  | .idleTimeout  => false
  | .reset        => false
  | .configure .. => true
  | .setHigh _    => true
  | .setLow _     => true
  | .read ..      => true
  | .txWrite ..   => true
  | .signalError  => true

/-- A GPIO event (20_memory.md R65). -/
def Event.isGpio : Event → Bool
  | .configure .. => true
  | .setHigh _    => true
  | .setLow _     => true
  | .read ..      => true
  | .rxByte _     => false
  | .idleTimeout  => false
  | .reset        => false
  | .txWrite ..   => false
  | .signalError  => false

end Sys2Proof.Machine
end

