-- ==== Sys2Proof/Machine/Ops.lean ====
section
/-!
DEFINITION. The operations the meanings and the scanner share: emitting an event, the GPIO calls, the
transport call, `Send`, the error entries `OnDecodeError` and `OnWriteFail`, and the return to Scanning
(spec/20_memory.md, spec/42_dispatch.md R211, spec/60_exceptions.md R246 to R252).
-/

namespace Sys2Proof.Machine

/-! ### The environment's GPIO copy (10_state.md R45) -/

/-- What the copy holds for a pin. -/
def pinAt (pins : Vector PinState 32) (p : Pin) : PinState := pins[p.toNat]'p.isLt

/-- Replace what the copy holds for a pin. -/
def setPin (pins : Vector PinState 32) (p : Pin) (v : PinState) : Vector PinState 32 :=
  pins.set p.toNat v p.isLt

/-- How an event changes the copy: `Configure` sets the direction, `SetHigh` and `SetLow` the driven
level (20_memory.md R65). -/
def pinsAfter (e : Event) (pins : Vector PinState 32) : Vector PinState 32 :=
  match e with
  | .configure p d => setPin pins p { pinAt pins p with dir := dirOf d }
  | .setHigh p     => setPin pins p { pinAt pins p with lvl := .high }
  | .setLow p      => setPin pins p { pinAt pins p with lvl := .low }
  | _              => pins

/-! ### Emitting -/

/-- The event happens: it is appended to the trace and the GPIO copy follows it. -/
def record (e : Event) (s : State) : State :=
  { s with trace := s.trace ++ [e], pins := pinsAfter e s.pins }

/-- How many output events of the processing still precede the `Reset` that interrupts it; `none` when
none does. An `IdleTimeout` has no effect in Complete and does not hold a `Reset` back; no `RxByte` is
taken there, so a `Reset` behind one comes after the processing (60_exceptions.md R244;
70_reset_and_hazards.md R271). -/
def pendingReset : List Input → Option Nat
  | []                   => none
  | .rxByte _ :: _       => none
  | .idleTimeout :: rest => pendingReset rest
  | .reset k :: _        => some k

/-- A `Reset` lands at this point of the processing (70_reset_and_hazards.md R271). -/
def resetDue (s : State) : Bool := pendingReset s.inputs == some 0

/-- `n` output events fewer precede a pending `Reset`. -/
def countDown (n : Nat) : List Input → List Input
  | []                   => []
  | .rxByte b :: rest    => .rxByte b :: rest
  | .idleTimeout :: rest => .idleTimeout :: countDown n rest
  | .reset k :: rest     => .reset (k - n) :: rest

/-- `emit E` inside the processing of a frame (00_scope.md R18). Once a pending `Reset` is due, "events
not yet emitted are never emitted" (70_reset_and_hazards.md R271). -/
def emit (e : Event) (s : State) : State :=
  if resetDue s then s else { record e s with inputs := countDown 1 s.inputs }

/-! ### Calls with a reply (00_scope.md R13, R18) -/

/-- The level the next GPIO read returns: the environment's next listed level, or a free value. -/
def nextLevel (s : State) : Bool := s.levelDraws.head?.getD (Config.freeLevel s.drawCount)

/-- The outcome the next transport write of `len` bytes returns. -/
def nextReply (len : Nat) (s : State) : TxReply :=
  boundReply len (s.txDraws.head?.getD (Config.freeTxReply s.drawCount))

/-- `call Read(p)` (20_memory.md R66): the event with its level, one draw taken. -/
def callRead (p : Pin) (s : State) : State :=
  if resetDue s then s
  else { emit (.read p (nextLevel s)) s with
         levelDraws := s.levelDraws.tail, drawCount := s.drawCount + 1 }

/-- `call TxWrite(bytes)` (20_memory.md R63, R64): the event with its outcome, one draw taken. -/
def callTx (bytes : List Byte) (s : State) : State :=
  if resetDue s then s
  else { emit (.txWrite bytes (nextReply bytes.length s)) s with
         txDraws := s.txDraws.tail, drawCount := s.drawCount + 1 }

/-! ### Transmitting -/

/-- `OnWriteFail()` (60_exceptions.md R252): signal; the frame is abandoned, there is no retry. -/
def onWriteFail (s : State) : State := emit .signalError s

/-- One `TxWrite` of a frame and, if it failed, `OnWriteFail` (42_dispatch.md R211). -/
def transmit (bytes : List Byte) (s : State) : State :=
  match nextReply bytes.length s with
  | .ok     => callTx bytes s
  | .fail _ => onWriteFail (callTx bytes s)

/-- Encode a Message and transmit the frame; a Message Encode does not admit is refused
(40_codec.md R126). -/
def transmitMsg (m : Message) (s : State) : Host.Outcome State Fault Refusal :=
  match encodeMsg m with
  | some bytes => .next (transmit bytes s)
  | none       => .refused .encodeLengthMismatch

/-- `Send` of the response in `T.resp` (42_dispatch.md R211). -/
def send (s : State) : Host.Outcome State Fault Refusal :=
  match readResp s with
  | .ok r    => transmitMsg r s
  | .error f => .fault f

/-- Build the response, write it to `T.resp`, send it (42_dispatch.md R210, R211). -/
def respond (version : Version) (pin : Pin) (io : Io) (rw : Rw) (payload : List Byte) (s : State) :
    Host.Outcome State Fault Refusal :=
  send (writeResp (respFor version pin io rw payload) s)

/-- `Configure(pin, io)` before a write, if `P_WRITE_CONFIGURE` (42_dispatch.md R205). -/
def configureForWrite (pin : Pin) (io : Io) (s : State) : State :=
  if s.cfg.writeConfigure then emit (.configure pin io) s else s

/-! ### Taking an error, and the return to Scanning -/

/-- `OnDecodeError(k)` (60_exceptions.md R246): signal, then the diagnostic frame of `P_DIAG(k)`, if
any. Nothing is saved (R245). -/
def onDecodeError (k : DecodeError) (s : State) : Host.Outcome State Fault Refusal :=
  match diagFor s.cfg k with
  | none   => .next (emit .signalError s)
  | some d => transmitMsg d (emit .signalError s)

/-- The end of every processing (41_framing.md R176) and the return from error handling
(60_exceptions.md R250): the buffer is emptied, the phase is Scanning, and the transient registers,
which exist only in Complete, have no value (10_state.md R41). -/
def toScanning (s : State) : State :=
  { s with phase := .scanning, buf := [], outcome := none, resp := none }

/-- `Overflow` and `Timeout` (60_exceptions.md R241): signal and discard the candidate, inside the step
that detected them. -/
def abandon (s : State) : State := toScanning (record .signalError s)

/-- Apply a function to the next state of an outcome. -/
def mapNext (f : State → State) : Host.Outcome State Fault Refusal → Host.Outcome State Fault Refusal
  | .next s    => .next (f s)
  | .fault r   => .fault r
  | .refused r => .refused r

end Sys2Proof.Machine
end

