-- ==== Sys2Proof/Machine/Read.lean ====
section
/-!
DEFINITION. The READ command (spec/42_dispatch.md R201).
-/

namespace Sys2Proof.Machine

/-- `Exec_READ(m)` (42_dispatch.md R201): configure the pin per `io`, sample it, answer one ASCII digit
with `rw = Read`. The request's data is ignored (30_encoding.md R105). -/
def execRead (version : Version) (pin : Pin) (io : Io) (_data : List Byte) (s : State) :
    Host.Outcome State Fault Refusal :=
  let s₁ := emit (.configure pin io) s
  respond version pin io .read [levelDigit (nextLevel s₁)] (callRead pin s₁)

end Sys2Proof.Machine
end

