-- ==== Sys2Proof/Machine/Write.lean ====
section
/-!
DEFINITION. The Write commands (spec/42_dispatch.md R202, R203, R204, R207). Every write response has
`rw = Write` (R210).
-/

namespace Sys2Proof.Machine

/-- `Exec_WRITE_ON(m)` (42_dispatch.md R202): drive the pin high, answer `P_ACK_HIGH`. -/
def execWriteOn (version : Version) (pin : Pin) (io : Io) (_rest : List Byte) (s : State) :
    Host.Outcome State Fault Refusal :=
  respond version pin io .write s.cfg.ackHigh (emit (.setHigh pin) (configureForWrite pin io s))

/-- `Exec_WRITE_OFF(m)` (42_dispatch.md R203): drive the pin low, answer `P_ACK_LOW`. -/
def execWriteOff (version : Version) (pin : Pin) (io : Io) (_rest : List Byte) (s : State) :
    Host.Outcome State Fault Refusal :=
  respond version pin io .write s.cfg.ackLow (emit (.setLow pin) (configureForWrite pin io s))

/-- `Exec_WRITE_INVALID(m)` (42_dispatch.md R204): signal, answer "invalid data"; no GPIO event. -/
def execWriteInvalid (version : Version) (pin : Pin) (io : Io) (_d0 : Byte) (_rest : List Byte)
    (s : State) : Host.Outcome State Fault Refusal :=
  respond version pin io .write txtInvalid (emit .signalError s)

/-- `Exec_WRITE_NODATA(m)` (42_dispatch.md R207): answer "no data"; the pin is not touched. -/
def execWriteNodata (version : Version) (pin : Pin) (io : Io) (s : State) :
    Host.Outcome State Fault Refusal :=
  respond version pin io .write txtNodata s

end Sys2Proof.Machine
end

