-- ==== Sys2Proof/Machine/Dispatch.lean ====
section
/-!
DEFINITION. `Dispatch(m)` (spec/42_dispatch.md R200): each command's meaning.
-/

namespace Sys2Proof.Machine

def exec (i : Instr) (s : State) : Host.Outcome State Fault Refusal :=
  match i with
  | .read version pin io data => Sys2Proof.Machine.execRead version pin io data s
  | .writeOn version pin io rest => Sys2Proof.Machine.execWriteOn version pin io rest s
  | .writeOff version pin io rest => Sys2Proof.Machine.execWriteOff version pin io rest s
  | .writeInvalid version pin io d0 rest => Sys2Proof.Machine.execWriteInvalid version pin io d0 rest s
  | .writeNodata version pin io => Sys2Proof.Machine.execWriteNodata version pin io s

end Sys2Proof.Machine
end

