-- ==== Sys2Proof/Machine/Complete.lean ====
section
/-!
DEFINITION. Processing a candidate frame (spec/41_framing.md R175, R176).
-/

namespace Sys2Proof.Machine

/-- `OnComplete()` (41_framing.md R176): decode the buffer into `T.outcome`; dispatch the request or
take the decode error; then empty the buffer and return to Scanning, whatever the outcome. -/
def onComplete (s : State) : Host.Outcome State Fault Refusal :=
  let s₁ := writeOutcome (decode s.cfg.decodeExcess s.buf) s
  match readOutcome s₁ with
  | .error f       => .fault f
  | .ok (.ok m)    => mapNext toScanning (exec (Instr.ofMessage m) s₁)
  | .ok (.err k)   => mapNext toScanning (onDecodeError k s₁)

/-- The inputs without the resets that would land in the processing of a frame. -/
def dropResets : List Input → List Input
  | []                   => []
  | .rxByte b :: rest    => .rxByte b :: rest
  | .idleTimeout :: rest => .idleTimeout :: dropResets rest
  | .reset _ :: rest     => dropResets rest

/-- Place one request's whole frame in the candidate buffer, ready to be processed, with no reset
landing in the processing. -/
def placeFrame (frame : List Byte) (s : State) : State :=
  { s with phase := .complete, buf := frame, outcome := none, resp := none,
           inputs := dropResets s.inputs }

end Sys2Proof.Machine
end

