-- ==== Sys2Proof/Machine/Scanner.lean ====
section
/-!
DEFINITION. The Framing Scanner (spec/41_framing.md): received bytes in the two framing modes, the idle
timeout, the reset, and taking the next input event.
-/

namespace Sys2Proof.Machine

/-- Scanning, on `RxByte(b)`, both modes (41_framing.md R162): STX opens a candidate, every other byte
is discarded without an event. -/
def onByteScanning (b : Byte) (s : State) : State :=
  if b = stx then { s with buf := [b], phase := .accumulating } else s

/-- Accumulating, on `RxByte(b)`: append (41_framing.md R163). -/
def appendByte (b : Byte) (s : State) : State := { s with buf := s.buf ++ [b] }

/-- LENGTH_AWARE end test (41_framing.md R167) on the buffer as it now is. -/
def endTestLengthAware (s : State) : State :=
  if expectedLength s.buf = some s.buf.length then { s with phase := .complete } else s

/-- SENTINEL end test (41_framing.md R169), then the accumulation cap (R170). `b` is the byte just
appended. -/
def endTestSentinel (b : Byte) (s : State) : State :=
  if b = etx then { s with phase := .complete }
  else
    match s.cfg.accCap with
    | none     => s
    | some cap => if cap ≤ s.buf.length then abandon s else s

/-- `RxByte(b)` (41_framing.md R166, R168). In Complete none is taken (20_memory.md R61). -/
def onByte (b : Byte) (s : State) : State :=
  match s.phase with
  | .scanning => onByteScanning b s
  | .accumulating =>
    match s.cfg.framing with
    | .lengthAware => endTestLengthAware (appendByte b s)
    | .sentinel    => endTestSentinel b (appendByte b s)
  | .complete => s

/-- `IdleTimeout` (41_framing.md R173): in Accumulating, when enabled, signal and discard; otherwise no
effect. -/
def onIdleTimeout (s : State) : State :=
  if s.cfg.idleTimeout = true ∧ s.phase = .accumulating then abandon s else s

/-- `OnReset()` (70_reset_and_hazards.md R270): Scanning, an empty buffer, no transient values; no
output event; GPIO and configuration untouched. -/
def onReset (s : State) : State := toScanning s

/-- The event under which a taken input is recorded. -/
def Input.event : Input → Event
  | .rxByte b    => .rxByte b
  | .idleTimeout => .idleTimeout
  | .reset _     => .reset

/-- The block's reaction to an input event (41_framing.md R177 (a), (b), (d)). -/
def react (i : Input) (s : State) : State :=
  match i with
  | .rxByte b    => onByte b s
  | .idleTimeout => onIdleTimeout s
  | .reset _     => onReset s

/-- Take the next input event, if there is one; otherwise wait, which changes no state
(20_memory.md R61). -/
def takeInput (s : State) : State :=
  match s.inputs with
  | []        => s
  | i :: rest => react i (record i.event { s with inputs := rest })

end Sys2Proof.Machine
end

