-- ==== Sys2Proof/Machine/Step.lean ====
section
/-!
DEFINITION. One step of the machine (spec/41_framing.md R177), and the host's way to put an
instruction where the next step reads it.
-/

namespace Sys2Proof.Machine

/-- A block step: the whole of `OnComplete` in Complete (41_framing.md R177 (c)); otherwise the next
input event (a), (b), (d), or a wait. -/
def step (s : State) : Host.Outcome State Fault Refusal :=
  match s.phase with
  | .complete     => onComplete s
  | .scanning     => .next (takeInput s)
  | .accumulating => .next (takeInput s)

/-! ### The block's step relation, its parameters as arguments (10_state.md R50) -/

/-- What a step of the block leaves: its state, the draws and inputs still to come, and the events that
happened, in order. -/
structure BlockNext where
  block  : Block
  draws  : Draws
  inputs : List Input
  events : List Event
deriving DecidableEq, Repr

/-- The closed machine of a block and its arguments, before its first event. -/
def closedMachine (cfg : Config) (draws : Draws) (inputs : List Input) (b : Block) : State :=
  { toBlock := b, toDraws := draws, cfg := cfg, inputs := inputs, pins := State.reset.pins, trace := [] }

/-- The step relation on the block's state alone: the configuration and the draws are its arguments
(10_state.md R50; 00_scope.md R12, R13; 70_reset_and_hazards.md R274), as are the inputs. -/
def blockStep (cfg : Config) (draws : Draws) (inputs : List Input) (b : Block) :
    Host.Outcome BlockNext Fault Refusal :=
  match step (closedMachine cfg draws inputs b) with
  | .next t    => .next ⟨t.toBlock, t.toDraws, t.inputs, t.trace⟩
  | .fault f   => .fault f
  | .refused r => .refused r

/-- The closed machine after a step of its block. -/
def State.after (s : State) (n : BlockNext) : State :=
  { s with toBlock := n.block, toDraws := n.draws, inputs := n.inputs, trace := s.trace ++ n.events,
           pins := n.events.foldl (fun ps e => pinsAfter e ps) s.pins }

/-- The state with the frame of an opcode-table word complete in the buffer, so that the next step
decodes and runs it (log entry 15). -/
def State.withFetchWord (s : State) (nbits w : Nat) : State := placeFrame (tableFrame nbits w) s

end Sys2Proof.Machine
end

