-- ==== Sys2Proof/Safety.lean ====
section
/-!
DEFINITION. What a safe run is, in the terms the statements use: the state invariants of
10_state.md R38, R39 and R41, and the small vocabulary of the claims (a pending reset, a bit flip, the
bytes of a stream as inputs, counts of events).
-/

namespace Sys2Proof.Machine

/-- The shape of the candidate buffer in each phase (10_state.md R39 (a) to (e)). -/
def bufShape (s : State) : Prop :=
  match s.phase with
  | .scanning => s.buf = []
  | .accumulating =>
    s.buf.head? = some stx ∧
    match s.cfg.framing with
    | .lengthAware => ∀ n, expectedLength s.buf = some n → s.buf.length < n
    | .sentinel    => etx ∉ s.buf.tail ∧ ∀ cap, s.cfg.accCap = some cap → s.buf.length < cap
  | .complete =>
    s.buf.head? = some stx ∧
    match s.cfg.framing with
    | .lengthAware => expectedLength s.buf = some s.buf.length
    | .sentinel    => s.buf.getLast? = some etx

/-- The invariant of the machine between two steps. -/
structure Inv (s : State) : Prop where
  /-- The configuration lies in the domain of 00_scope.md R12. -/
  cfg     : configOk s.cfg = true
  /-- 10_state.md R39. -/
  shape   : bufShape s
  /-- 10_state.md R38: the buffer keeps within BUF_MAX. -/
  bound   : ∀ n, bufMax s.cfg = some n → s.buf.length ≤ n
  /-- 10_state.md R41: no transient value outlives the processing of its frame. -/
  outcome : s.outcome = none
  /-- 10_state.md R41. -/
  resp    : s.resp = none

/-- A `Reset` is the environment's next input, idle timeouts aside: in Complete it can land inside the
processing. -/
def resetNext (s : State) : Bool := (pendingReset s.inputs).isSome

/-- An `RxByte` input. -/
def Input.isRx : Input → Bool
  | .rxByte _    => true
  | .idleTimeout => false
  | .reset _     => false

/-- `k` steps, stopping at the first fault or refusal: the host's `Core.run` of this machine. -/
def runSteps : Nat → State → Host.Outcome State Fault Refusal
  | 0, s     => .next s
  | k + 1, s =>
    match step s with
    | .next t    => runSteps k t
    | .fault r   => .fault r
    | .refused r => .refused r

/-- A byte stream as input events. -/
def rxAll (bytes : List Byte) : List Input := bytes.map .rxByte

/-- A byte stream as the events of its reception. -/
def rxEvents (bytes : List Byte) : List Event := bytes.map .rxByte

/-- A `TxWrite` event. -/
def Event.isTx : Event → Bool
  | .txWrite .. => true
  | _ => false

/-- The signals a failed write adds: one `SignalError` after `Fail`, none after `Ok`
(60_exceptions.md R252). -/
def failSignal : TxReply → List Event
  | .ok     => []
  | .fail _ => [.signalError]

/-- One bit of one byte of a buffer inverted. -/
def flipBit (buf : List Byte) (offset bit : Nat) : List Byte :=
  buf.modify offset (fun b => b ^^^ (1#8 <<< bit))

end Sys2Proof.Machine
end

