-- ==== Sys2Proof/Certificates/Slice0/Obligations.lean ====
section
/-!
DEFINITION. The statements for the provers. Each docstring names the rule of spec/ it formalises, and
where a clause rests on a decision of the spec (92_eei_decisions.md) or on a choice of this model.
In every statement about a state, `inputs`, `levelDraws`, `txDraws`, `drawCount`, `pins` and `trace` are
this model's rendering of the environment and of the observable events (log entries 3, 5, 8 and 9).
The spec asks that no claim depend on the order of a SignalError against the transmit of an error or
diagnostic frame (42_dispatch.md R212; 93_implementation_defined.md U21): the statements about those
frames give the emitted events up to order.
-/

open Sys2Proof Sys2Proof.Machine

/-! ### The codec -/

/-- 30_encoding.md R90, R93: the bytes of a well-formed Message's frame, each at its offset, in plain
arithmetic. -/
def Obligations.EncodeLaysOutTheFrame : Prop :=
  ∀ m : Message, m.wf = true →
    ∃ f, encodeMsg m = some f ∧ f.length = 5 + m.length.toNat ∧
      f[0]? = some 0x02#8 ∧
      f[1]? = some (BitVec.ofNat 8 (m.version.toNat * 32 + m.pin.toNat)) ∧
      f[2]? = some (BitVec.ofNat 8 (m.io.code * 128 + m.rw.code * 64 + m.length.toNat)) ∧
      (∀ k, k < m.length.toNat → f[3 + k]? = m.data[k]?) ∧
      f[3 + m.length.toNat]? = some (BitVec.ofNat 8
        ((m.version.toNat + m.pin.toNat + m.io.code + m.rw.code + m.length.toNat +
          (m.data.map BitVec.toNat).sum) % 256)) ∧
      f[4 + m.length.toNat]? = some 0x03#8

/-- 30_encoding.md R91, R92: which bit of which field stands at each bit of the two header bytes, and
the fields read back from any byte. -/
def Obligations.HeaderFieldsStandAtTheirBits : Prop :=
  (∀ (v p : Byte) (i : Nat), i < 8 →
    (packH1 v p).getLsbD i = if i < 5 then p.getLsbD i else v.getLsbD (i - 5)) ∧
  (∀ (io : Io) (rw : Rw) (l : Byte) (i : Nat), i < 8 →
    (packH2 io rw l).getLsbD i =
      if i < 6 then l.getLsbD i else if i = 6 then decide (rw = .write) else decide (io = .output)) ∧
  (∀ (b : Byte) (i : Nat),
    (h1Version b).getLsbD i = (decide (i < 3) && b.getLsbD (i + 5)) ∧
    (h1Pin b).getLsbD i = (decide (i < 5) && b.getLsbD i) ∧
    (h2Length b).getLsbD i = (decide (i < 6) && b.getLsbD i)) ∧
  (∀ b : Byte, h2Io b = (if b.getLsbD 7 then .output else .input) ∧
    h2Rw b = (if b.getLsbD 6 then .write else .read))

/-- 40_codec.md R121 ("Reducing after each addition gives the same result", marked derived in the
spec): the checksum is the wrapping byte-by-byte sum. -/
def Obligations.ChecksumMayBeReducedAfterEachAddition : Prop :=
  ∀ (version pin : Byte) (io : Io) (rw : Rw) (length : Byte) (data : List Byte),
    checksum version pin io rw length data =
      data.foldl (fun acc b => acc + b)
        (version + pin + BitVec.ofNat 8 io.code + BitVec.ofNat 8 rw.code + length)

/-- 40_codec.md R126, R128 (decision D6 of the spec): Encode is admitted exactly when the data length
equals the length field; out-of-range header fields are masked, the checksum is over the raw values. -/
def Obligations.EncodeMasksHeaderAndSumsRawFields : Prop :=
  ∀ m : Message,
    (m.data.length ≠ m.length.toNat → encodeMsg m = none) ∧
    (m.data.length = m.length.toNat →
      encodeMsg m = some
        ([0x02#8, packH1 (m.version &&& 0x07#8) (m.pin &&& 0x1F#8),
            packH2 m.io m.rw (m.length &&& 0x3F#8)] ++ m.data ++
          [BitVec.ofNat 8 (m.version.toNat + m.pin.toNat + m.io.code + m.rw.code + m.length.toNat +
            (m.data.map BitVec.toNat).sum), 0x03#8]))

/-- 40_codec.md R130 to R137: what each of Decode's six checks reports when it is the first that fails.
The order in which the checks run is the spec's decision D4, the excess check its decision D5. -/
def Obligations.DecodeReportsTheFirstFailingCheck : Prop :=
  (∀ (x : Excess) (buf : List Byte), buf.length < 4 → decode x buf = .err .frameTooShort) ∧
  (∀ (x : Excess) (b0 h1 h2 last : Byte) (mid : List Byte),
    let buf := b0 :: h1 :: h2 :: (mid ++ [last])
    let len := h2.toNat % 64
    (b0 ≠ 0x02#8 → decode x buf = .err .invalidStart) ∧
    (b0 = 0x02#8 → last ≠ 0x03#8 → decode x buf = .err .invalidEnd) ∧
    (b0 = 0x02#8 → last = 0x03#8 → buf.length < 3 + len + 2 →
      decode x buf = .err .frameTooShort) ∧
    (b0 = 0x02#8 → last = 0x03#8 → 3 + len + 2 ≤ buf.length →
      (x = .ignore ∨ buf.length = 5 + len) →
      buf[3 + len]? ≠
        some (checksum (h1Version h1) (h1Pin h1) (h2Io h2) (h2Rw h2) (h2Length h2) (mid.take len)) →
      decode x buf = .err .checksumMismatch) ∧
    -- the fifth check: before the checksum is looked at, right or wrong
    (b0 = 0x02#8 → last = 0x03#8 → 5 + len < buf.length → decode .reject buf = .err .invalidEnd))

/-- 40_codec.md R137 (decision D5 of the spec): bytes past offset `4 + length`. Under `REJECT` they make
the buffer an `InvalidEnd`; under `IGNORE` the buffer decodes as if they were not there. -/
def Obligations.ExcessBytesAreIgnoredOrRejected : Prop :=
  ∀ (m : Message) (extra : List Byte), m.wf = true → extra ≠ [] →
    let buf := (frameBytes m).dropLast ++ extra ++ [etx]
    decode .reject buf = .err .invalidEnd ∧ decode .ignore buf = .ok m

/-- 40_codec.md R138, 10_state.md R31 (marked derived in the spec): every Message Decode returns is
well-formed. -/
def Obligations.DecodedMessageIsWellFormed : Prop :=
  ∀ (x : Excess) (buf : List Byte) (m : Message), decode x buf = .ok m → m.wf = true

/-- 40_codec.md R141: the round trip, under either excess setting. -/
def Obligations.DecodeOfEncodeIsTheMessage : Prop :=
  ∀ (x : Excess) (m : Message), m.wf = true →
    ∃ f, encodeMsg m = some f ∧ decode x f = .ok m

/-- Decode and encode agree on instructions: every well-formed instruction of every command, with every
operand at every value, is read back from its own frame (30_encoding.md, 40_codec.md). -/
def Obligations.DecodeOfEncodeIsTheInstruction : Prop :=
  ∀ (x : Excess) (i : Instr), i.wf = true →
    encodeMsg i.request = some (encode i) ∧ decodeInstr x (encode i) = .ok i

/-- 40_codec.md R142 (marked derived in the spec): encoding a decoded Message gives the buffer back,
without its excess bytes. -/
def Obligations.EncodeOfDecodedIsTheBuffer : Prop :=
  ∀ (x : Excess) (buf : List Byte) (m : Message), decode x buf = .ok m →
    (buf.length = 5 + m.length.toNat → encodeMsg m = some buf) ∧
    encodeMsg m = some (buf.take (4 + m.length.toNat) ++ [etx])

/-- 40_codec.md R143 (marked derived in the spec): one flipped bit outside the markers and the length
field is always caught by the checksum. -/
def Obligations.SingleBitFlipOutsideLengthIsCaught : Prop :=
  ∀ (x : Excess) (m : Message) (offset bit : Nat), m.wf = true → bit < 8 →
    (offset = 1 ∨ (offset = 2 ∧ 6 ≤ bit) ∨ (3 ≤ offset ∧ offset ≤ 3 + m.length.toNat)) →
    decode x (flipBit (frameBytes m) offset bit) = .err .checksumMismatch

/-- 40_codec.md R145 (marked derived in the spec): one flipped bit of a marker. -/
def Obligations.FlippedMarkerIsReported : Prop :=
  ∀ (x : Excess) (m : Message) (bit : Nat), m.wf = true → bit < 8 →
    decode x (flipBit (frameBytes m) 0 bit) = .err .invalidStart ∧
    decode x (flipBit (frameBytes m) (4 + m.length.toNat) bit) = .err .invalidEnd

/-- 40_codec.md R146 (marked derived in the spec): reordering data bytes is not detected. -/
def Obligations.ReorderedDataIsNotDetected : Prop :=
  ∀ (x : Excess) (m : Message) (data' : List Byte), m.wf = true → data'.Perm m.data →
    decode x ([stx, packH1 m.version m.pin, packH2 m.io m.rw m.length] ++ data' ++
      [m.checksum, etx]) = .ok { m with data := data' }

/-! ### The command map -/

/-- 30_encoding.md R98, R100 (uniqueness marked derived in the spec): a decoded request matches exactly
one row of the opcode table, the row of the command R98 selects, and the decoder gives that command. -/
def Obligations.RequestMatchesExactlyItsRow : Prop :=
  ∀ m : Message, m.wf = true →
    (∀ c : Command, c.selects m = true ↔ c = m.command) ∧
    (Instr.ofMessage m).command = m.command

/-- 30_encoding.md R98, R101, R105: the instruction a decoded request becomes is well-formed and keeps
every field and data byte of the request. -/
def Obligations.InstructionKeepsTheWholeRequest : Prop :=
  ∀ m : Message, m.wf = true →
    (Instr.ofMessage m).wf = true ∧ (Instr.ofMessage m).request = m

/-- Words written out from the spec's encodings decode to the commands they stand for
(30_encoding.md R109; 95_test_vectors.md V13). A sanity statement. -/
def Obligations.WrittenFramesDecodeToTheirCommands : Prop :=
  decodeInstr .ignore [0x02#8, 0x25#8, 0x80#8, 0x07#8, 0x03#8] = .ok (.read 1#3 5#5 .output []) ∧
  decodeInstr .ignore [0x02#8, 0x20#8, 0xC1#8, 0x31#8, 0x35#8, 0x03#8] =
    .ok (.writeOn 1#3 0#5 .output []) ∧
  decodeInstr .ignore [0x02#8, 0x03#8, 0xC1#8, 0x30#8, 0x36#8, 0x03#8] =
    .ok (.writeOff 0#3 3#5 .output []) ∧
  decodeInstr .ignore [0x02#8, 0x23#8, 0xC1#8, 0x32#8, 0x39#8, 0x03#8] =
    .ok (.writeInvalid 1#3 3#5 .output 0x32#8 []) ∧
  decodeInstr .ignore [0x02#8, 0x27#8, 0x40#8, 0x09#8, 0x03#8] = .ok (.writeNodata 1#3 7#5 .input)

/-! ### The commands: what each does, when it completes -/

/-- 42_dispatch.md R201: READ completes in Complete for every operand and every draw, when no reset
lands inside it: the pin is configured per `io`, sampled once, and one digit is answered in one frame
with the mirrored header. Everything not named is unchanged. The level and the write outcome are draws,
whose form is this model's choice (log entries 3 and 4). -/
def Obligations.ReadConfiguresSamplesAndAnswers : Prop :=
  ∀ (s : State) (v : Version) (p : Pin) (io : Io) (data : List Byte),
    s.phase = .complete → resetNext s = false →
    let level := nextLevel s
    let digit : Byte := if level then 0x31#8 else 0x30#8
    let sum : Byte := BitVec.ofNat 8 (v.toNat + p.toNat + io.code + 0 + 1 + digit.toNat)
    let bytes : List Byte :=
      [0x02#8, BitVec.ofNat 8 (v.toNat * 32 + p.toNat), BitVec.ofNat 8 (io.code * 128 + 1), digit,
        sum, 0x03#8]
    let reply := nextReply 6 { s with drawCount := s.drawCount + 1 }
    exec (.read v p io data) s = .next { s with
      resp := some { version := v.setWidth 8, pin := p.setWidth 8, io := io, rw := .read,
                     length := 1#8, data := [digit], checksum := sum },
      levelDraws := s.levelDraws.tail, txDraws := s.txDraws.tail, drawCount := s.drawCount + 2,
      pins := setPin s.pins p { pinAt s.pins p with dir := dirOf io },
      trace := s.trace ++ [.configure p io, .read p level, .txWrite bytes reply] ++ failSignal reply }

/-- 42_dispatch.md R202 (with the spec's decisions D7, D8, D9): WRITE_ON completes in Complete for every
operand, every draw and every configuration of R12's domain, when no reset lands inside it. -/
def Obligations.WriteOnDrivesHighAndConfirms : Prop :=
  ∀ (s : State) (v : Version) (p : Pin) (io : Io) (rest : List Byte),
    s.phase = .complete → resetNext s = false → configOk s.cfg = true →
    let ack := s.cfg.ackHigh
    let sum : Byte := BitVec.ofNat 8
      (v.toNat + p.toNat + io.code + 1 + ack.length + (ack.map BitVec.toNat).sum)
    let bytes : List Byte :=
      [0x02#8, BitVec.ofNat 8 (v.toNat * 32 + p.toNat),
        BitVec.ofNat 8 (io.code * 128 + 64 + ack.length)] ++ ack ++ [sum, 0x03#8]
    let reply := nextReply (5 + ack.length) s
    exec (.writeOn v p io rest) s = .next { s with
      resp := some { version := v.setWidth 8, pin := p.setWidth 8, io := io, rw := .write,
                     length := BitVec.ofNat 8 ack.length, data := ack, checksum := sum },
      txDraws := s.txDraws.tail, drawCount := s.drawCount + 1,
      pins := setPin s.pins p
        { dir := if s.cfg.writeConfigure then dirOf io else (pinAt s.pins p).dir, lvl := .high },
      trace := s.trace ++ (if s.cfg.writeConfigure then [.configure p io] else []) ++
        [.setHigh p, .txWrite bytes reply] ++ failSignal reply }

/-- 42_dispatch.md R203 (with the spec's decisions D7, D8, D9): WRITE_OFF, as WRITE_ON. -/
def Obligations.WriteOffDrivesLowAndConfirms : Prop :=
  ∀ (s : State) (v : Version) (p : Pin) (io : Io) (rest : List Byte),
    s.phase = .complete → resetNext s = false → configOk s.cfg = true →
    let ack := s.cfg.ackLow
    let sum : Byte := BitVec.ofNat 8
      (v.toNat + p.toNat + io.code + 1 + ack.length + (ack.map BitVec.toNat).sum)
    let bytes : List Byte :=
      [0x02#8, BitVec.ofNat 8 (v.toNat * 32 + p.toNat),
        BitVec.ofNat 8 (io.code * 128 + 64 + ack.length)] ++ ack ++ [sum, 0x03#8]
    let reply := nextReply (5 + ack.length) s
    exec (.writeOff v p io rest) s = .next { s with
      resp := some { version := v.setWidth 8, pin := p.setWidth 8, io := io, rw := .write,
                     length := BitVec.ofNat 8 ack.length, data := ack, checksum := sum },
      txDraws := s.txDraws.tail, drawCount := s.drawCount + 1,
      pins := setPin s.pins p
        { dir := if s.cfg.writeConfigure then dirOf io else (pinAt s.pins p).dir, lvl := .low },
      trace := s.trace ++ (if s.cfg.writeConfigure then [.configure p io] else []) ++
        [.setLow p, .txWrite bytes reply] ++ failSignal reply }

/-- 42_dispatch.md R204 (with the spec's decision D7, and the ASCII bytes of the text, general knowledge
in the spec, log entry 12): WRITE_INVALID completes in Complete for every operand and draw, when no
reset lands inside it: the signal and the answer, up to order; no GPIO event. -/
def Obligations.WriteInvalidSignalsAndAnswers : Prop :=
  ∀ (s : State) (v : Version) (p : Pin) (io : Io) (d0 : Byte) (rest : List Byte),
    s.phase = .complete → resetNext s = false →
    let text : List Byte := [0x69#8, 0x6E#8, 0x76#8, 0x61#8, 0x6C#8, 0x69#8, 0x64#8, 0x20#8, 0x64#8,
      0x61#8, 0x74#8, 0x61#8]
    let sum : Byte := BitVec.ofNat 8
      (v.toNat + p.toNat + io.code + 1 + 12 + (text.map BitVec.toNat).sum)
    let bytes : List Byte :=
      [0x02#8, BitVec.ofNat 8 (v.toNat * 32 + p.toNat), BitVec.ofNat 8 (io.code * 128 + 64 + 12)] ++
        text ++ [sum, 0x03#8]
    let reply := nextReply 17 s
    ∃ es, es.Perm ([.signalError, .txWrite bytes reply] ++ failSignal reply) ∧
    exec (.writeInvalid v p io d0 rest) s = .next { s with
      resp := some { version := v.setWidth 8, pin := p.setWidth 8, io := io, rw := .write,
                     length := 12#8, data := text, checksum := sum },
      txDraws := s.txDraws.tail, drawCount := s.drawCount + 1,
      trace := s.trace ++ es }

/-- 42_dispatch.md R207 (with the spec's decision D7, and the ASCII bytes of the text, general knowledge
in the spec, log entry 12): WRITE_NODATA completes in Complete for every operand and draw, when no
reset lands inside it; no signal and no GPIO event. -/
def Obligations.WriteNodataAnswersOnly : Prop :=
  ∀ (s : State) (v : Version) (p : Pin) (io : Io),
    s.phase = .complete → resetNext s = false →
    let text : List Byte := [0x6E#8, 0x6F#8, 0x20#8, 0x64#8, 0x61#8, 0x74#8, 0x61#8]
    let sum : Byte := BitVec.ofNat 8
      (v.toNat + p.toNat + io.code + 1 + 7 + (text.map BitVec.toNat).sum)
    let bytes : List Byte :=
      [0x02#8, BitVec.ofNat 8 (v.toNat * 32 + p.toNat), BitVec.ofNat 8 (io.code * 128 + 64 + 7)] ++
        text ++ [sum, 0x03#8]
    let reply := nextReply 12 s
    exec (.writeNodata v p io) s = .next { s with
      resp := some { version := v.setWidth 8, pin := p.setWidth 8, io := io, rw := .write,
                     length := 7#8, data := text, checksum := sum },
      txDraws := s.txDraws.tail, drawCount := s.drawCount + 1,
      trace := s.trace ++ [.txWrite bytes reply] ++ failSignal reply }

/-! ### The commands: what each leaves unchanged, a landing reset included -/

/-- The frame of READ, WRITE_ON and WRITE_OFF (42_dispatch.md R201 to R203, R209; a reset that lands
inside is included): only the addressed pin's copy may change, READ changes no driven level, a write
that does not configure changes no direction, only READ takes a level draw, the configuration, the
phase, the buffer and T.outcome stay, and of the inputs only a pending reset's count may change. -/
def Obligations.GpioCommandsTouchOnlyTheirPin : Prop :=
  ∀ (s t : State) (v : Version) (p : Pin) (io : Io) (bytes : List Byte) (i : Instr),
    i = .read v p io bytes ∨ i = .writeOn v p io bytes ∨ i = .writeOff v p io bytes →
    exec i s = .next t →
    (∀ q, q ≠ p → pinAt t.pins q = pinAt s.pins q) ∧
    (i = .read v p io bytes → (pinAt t.pins p).lvl = (pinAt s.pins p).lvl) ∧
    (i ≠ .read v p io bytes → t.levelDraws = s.levelDraws ∧
      (s.cfg.writeConfigure = false → (pinAt t.pins p).dir = (pinAt s.pins p).dir)) ∧
    t.cfg = s.cfg ∧ t.phase = s.phase ∧ t.buf = s.buf ∧ t.outcome = s.outcome ∧
    ∃ n, t.inputs = countDown n s.inputs

/-- The frame of WRITE_INVALID and WRITE_NODATA (42_dispatch.md R204 "No GPIO event at all", R207 "do not
touch the pin"; a reset that lands inside is included): no pin's copy changes, no GPIO event is emitted
and no level draw is taken. -/
def Obligations.RejectedWritesTouchNoPin : Prop :=
  ∀ (s t : State) (v : Version) (p : Pin) (io : Io) (d0 : Byte) (rest : List Byte) (i : Instr),
    i = .writeInvalid v p io d0 rest ∨ i = .writeNodata v p io →
    exec i s = .next t →
    t.pins = s.pins ∧ t.levelDraws = s.levelDraws ∧
    (∃ es, t.trace = s.trace ++ es ∧ ∀ e ∈ es, e.isGpio = false) ∧
    t.cfg = s.cfg ∧ t.phase = s.phase ∧ t.buf = s.buf ∧ t.outcome = s.outcome ∧
    ∃ n, t.inputs = countDown n s.inputs

/-- 10_state.md R41 (decision D28 of the spec): outside Complete a command's response register cannot be
read, and every command stops with that fault. -/
def Obligations.CommandsFaultOutsideComplete : Prop :=
  ∀ (i : Instr) (s : State), s.phase ≠ .complete →
    exec i s = .fault .transientOutsideComplete

/-! ### The scanner -/

/-- 41_framing.md R162 (that a discarded byte emits nothing is the spec's decision D23): a byte received
in Scanning. -/
def Obligations.ScanningOpensOnStartMarkerOnly : Prop :=
  ∀ (s : State) (b : Byte) (rest : List Input),
    s.phase = .scanning → s.inputs = .rxByte b :: rest →
    step s = .next { s with
      inputs := rest, trace := s.trace ++ [.rxByte b],
      buf := if b = 0x02#8 then [b] else s.buf,
      phase := if b = 0x02#8 then .accumulating else .scanning }

/-- 41_framing.md R163, R167: a byte received in Accumulating, LENGTH_AWARE framing: appended whatever
its value; the frame is complete exactly at `5 + (buf[2] & 0x3F)` bytes. -/
def Obligations.LengthAwareFrameEndsByItsLength : Prop :=
  ∀ (s : State) (b : Byte) (rest : List Input),
    s.phase = .accumulating → s.cfg.framing = .lengthAware → s.inputs = .rxByte b :: rest →
    let buf := s.buf ++ [b]
    step s = .next { s with
      inputs := rest, trace := s.trace ++ [.rxByte b], buf := buf,
      phase := if 3 ≤ buf.length ∧ buf.length = 5 + (buf.getD 2 0#8).toNat % 64 then .complete
        else .accumulating }

/-- 41_framing.md R168, R169, R170, R171 (the cap and its action are the spec's decision D2): a byte
received in Accumulating, SENTINEL framing. -/
def Obligations.SentinelFrameEndsAtEndMarkerOrCap : Prop :=
  ∀ (s : State) (b : Byte) (rest : List Input),
    s.phase = .accumulating → s.cfg.framing = .sentinel → s.inputs = .rxByte b :: rest →
    let buf := s.buf ++ [b]
    (b = 0x03#8 → step s = .next { s with
      inputs := rest, trace := s.trace ++ [.rxByte b], buf := buf, phase := .complete }) ∧
    (b ≠ 0x03#8 → (∀ cap, s.cfg.accCap = some cap → buf.length < cap) → step s = .next { s with
      inputs := rest, trace := s.trace ++ [.rxByte b], buf := buf }) ∧
    (∀ cap, b ≠ 0x03#8 → s.cfg.accCap = some cap → cap ≤ buf.length → step s = .next { s with
      inputs := rest, trace := s.trace ++ [.rxByte b, .signalError], buf := [], phase := .scanning,
      outcome := none, resp := none })

/-- 41_framing.md R173 (the signal and the ignoring outside Accumulating are the spec's decision D3): an
idle timeout taken by the block. -/
def Obligations.IdleTimeoutAbandonsTheCandidate : Prop :=
  ∀ (s : State) (rest : List Input), s.phase ≠ .complete → s.inputs = .idleTimeout :: rest →
    (s.cfg.idleTimeout = true ∧ s.phase = .accumulating → step s = .next { s with
      inputs := rest, trace := s.trace ++ [.idleTimeout, .signalError], buf := [],
      phase := .scanning, outcome := none, resp := none }) ∧
    (s.cfg.idleTimeout = false ∨ s.phase = .scanning → step s = .next { s with
      inputs := rest, trace := s.trace ++ [.idleTimeout] })

/-- 70_reset_and_hazards.md R270 (decision D17 of the spec): a reset taken outside the processing of a
frame. -/
def Obligations.ResetReturnsToScanningSilently : Prop :=
  ∀ (s : State) (k : Nat) (rest : List Input), s.phase ≠ .complete → s.inputs = .reset k :: rest →
    step s = .next { s with
      inputs := rest, trace := s.trace ++ [.reset], phase := .scanning, buf := [], outcome := none,
      resp := none }

/-- 20_memory.md R61: one byte per event, taken only outside Complete, and waiting changes no state. -/
def Obligations.OneByteAtATimeAndNoneWhileComplete : Prop :=
  (∀ s : State, s.phase ≠ .complete → s.inputs = [] → step s = .next s) ∧
  (∀ (s : State) (b : Byte) (rest : List Input), s.phase ≠ .complete → s.inputs = .rxByte b :: rest →
    ∃ t es, step s = .next t ∧ t.inputs = rest ∧ t.trace = s.trace ++ .rxByte b :: es ∧
      ∀ c, .rxByte c ∉ es) ∧
  (∀ s t : State, s.phase = .complete → step s = .next t →
    t.inputs.filter Input.isRx = s.inputs.filter Input.isRx ∧
      ∃ es, t.trace = s.trace ++ es ∧ ∀ c, .rxByte c ∉ es)

/-- 41_framing.md R179 (a) with the first case of R180 (both marked derived in the spec): in LENGTH_AWARE
mode, garbage without a start marker followed by a well-formed frame, taken from Scanning, ends in
Complete with exactly that frame, which decodes to its Message and is dispatched. -/
def Obligations.LengthAwareServesFrameAfterGarbage : Prop :=
  ∀ (s : State) (garbage : List Byte) (m : Message) (rest : List Input),
    s.phase = .scanning → s.buf = [] → s.cfg.framing = .lengthAware →
    stx ∉ garbage → m.wf = true → s.inputs = rxAll (garbage ++ frameBytes m) ++ rest →
    let t : State := { s with
      inputs := rest, trace := s.trace ++ rxEvents (garbage ++ frameBytes m), phase := .complete,
      buf := frameBytes m }
    runSteps (garbage.length + (5 + m.length.toNat)) s = .next t ∧
    step t = mapNext toScanning (exec (Instr.ofMessage m) { t with outcome := some (.ok m) })

/-- 41_framing.md R179 (b), the "if" direction (marked derived in the spec): in SENTINEL mode a frame with
no inner end marker, and within the cap, is served. -/
def Obligations.SentinelServesFrameWithoutInnerEndMarker : Prop :=
  ∀ (s : State) (m : Message) (rest : List Input),
    s.phase = .scanning → s.buf = [] → s.cfg.framing = .sentinel → m.wf = true →
    etx ∉ (frameBytes m).tail.dropLast →
    (∀ cap, s.cfg.accCap = some cap → 5 + m.length.toNat ≤ cap) →
    s.inputs = rxAll (frameBytes m) ++ rest →
    let t : State := { s with
      inputs := rest, trace := s.trace ++ rxEvents (frameBytes m), phase := .complete,
      buf := frameBytes m }
    runSteps (5 + m.length.toNat) s = .next t ∧
    step t = mapNext toScanning (exec (Instr.ofMessage m) { t with outcome := some (.ok m) })

/-- 70_reset_and_hazards.md R281 with 41_framing.md R169 (marked derived in the spec): in SENTINEL mode a
frame is cut at its first inner end marker, and the cut candidate is always `FrameTooShort`. -/
def Obligations.SentinelCutsFrameAtInnerEndMarker : Prop :=
  ∀ (s : State) (m : Message) (front back : List Byte) (rest : List Input),
    s.phase = .scanning → s.buf = [] → s.cfg.framing = .sentinel → m.wf = true →
    frameBytes m = stx :: front ++ etx :: back → back ≠ [] → etx ∉ front →
    (∀ cap, s.cfg.accCap = some cap → front.length + 1 < cap) →
    s.inputs = rxAll (frameBytes m) ++ rest →
    runSteps (front.length + 2) s = .next { s with
      inputs := rxAll back ++ rest, trace := s.trace ++ rxEvents (stx :: front ++ [etx]),
      phase := .complete, buf := stx :: front ++ [etx] } ∧
    ∀ x, decode x (stx :: front ++ [etx]) = .err .frameTooShort

/-- 41_framing.md R184 (marked derived in the spec): in LENGTH_AWARE mode every candidate completes
within 67 bytes after its start marker, whatever those bytes are. -/
def Obligations.LengthAwareCandidateCompletesWithin67Bytes : Prop :=
  ∀ (s : State) (bytes : List Byte) (rest : List Input),
    s.phase = .scanning → s.cfg.framing = .lengthAware → bytes.length = 67 →
    s.inputs = .rxByte stx :: rxAll bytes ++ rest →
    ∃ k t, k ≤ 68 ∧ runSteps k s = .next t ∧ t.phase = .complete ∧
      t.buf = (stx :: bytes).take t.buf.length

/-- 41_framing.md R178 (marked derived in the spec): which decode errors a framing mode can produce, from
the invariant of the machine. -/
def Obligations.FramingExcludesDecodeErrors : Prop :=
  ∀ s : State, Inv s → s.phase = .complete →
    decode s.cfg.decodeExcess s.buf ≠ .err .invalidStart ∧
    (s.cfg.framing = .lengthAware → decode s.cfg.decodeExcess s.buf ≠ .err .frameTooShort) ∧
    (s.cfg.framing = .sentinel → s.cfg.decodeExcess = .ignore →
      decode s.cfg.decodeExcess s.buf ≠ .err .invalidEnd)

/-! ### Processing a candidate -/

/-- 41_framing.md R176, 42_dispatch.md R200: when the candidate decodes to an instruction, the step is
exec of that instruction, with T.outcome holding the decoded request and the return to Scanning
around it. -/
def Obligations.StepRunsTheDecodedInstruction : Prop :=
  ∀ (s : State) (i : Instr), s.phase = .complete →
    decodeInstr s.cfg.decodeExcess s.buf = .ok i →
    ∃ m, decode s.cfg.decodeExcess s.buf = .ok m ∧ i = Instr.ofMessage m ∧
      step s = mapNext (fun t => { t with phase := .scanning, buf := [], outcome := none, resp := none })
        (exec i { s with outcome := some (.ok m) })

/-- 41_framing.md R176: after Decode and, by its result, the dispatch or the error handling, the buffer
is reset and the machine is in Scanning, regardless of the decode outcome; the transient registers
have no value. -/
def Obligations.CompleteAlwaysReturnsToScanning : Prop :=
  ∀ s : State, s.phase = .complete →
    (∀ m, decode s.cfg.decodeExcess s.buf = .ok m →
      step s = mapNext toScanning (exec (Instr.ofMessage m) { s with outcome := some (.ok m) })) ∧
    (∀ k, decode s.cfg.decodeExcess s.buf = .err k →
      step s = mapNext toScanning (onDecodeError k { s with outcome := some (.err k) })) ∧
    (∀ t, step s = .next t →
      t.phase = .scanning ∧ t.buf = [] ∧ t.outcome = none ∧ t.resp = none)

/-- 60_exceptions.md R246, R248 (the OPEN `P_DIAG` is the spec's decision D12), for every `P_DIAG`: taking
a decode error: the signal and the diagnostic frame, up to order. -/
def Obligations.DecodeErrorSignalsAndReports : Prop :=
  ∀ (s : State) (k : DecodeError), s.phase = .complete → resetNext s = false →
    configOk s.cfg = true → decode s.cfg.decodeExcess s.buf = .err k →
    (diagFor s.cfg k = none → step s = .next { s with
      trace := s.trace ++ [.signalError], phase := .scanning, buf := [], outcome := none,
      resp := none }) ∧
    (∀ d, diagFor s.cfg k = some d →
      let reply := nextReply (frameBytes d).length s
      ∃ es, es.Perm ([.signalError, .txWrite (frameBytes d) reply] ++ failSignal reply) ∧
      step s = .next { s with
        trace := s.trace ++ es,
        txDraws := s.txDraws.tail, drawCount := s.drawCount + 1,
        phase := .scanning, buf := [], outcome := none, resp := none })

/-- 60_exceptions.md R245 (marked derived in the spec; a reset that lands inside is included): a frame
that fails Decode causes no GPIO event. -/
def Obligations.DecodeErrorCausesNoGpioEvent : Prop :=
  ∀ (s t : State) (k : DecodeError), s.phase = .complete →
    decode s.cfg.decodeExcess s.buf = .err k → step s = .next t →
    t.pins = s.pins ∧ t.levelDraws = s.levelDraws ∧
    ∃ es, t.trace = s.trace ++ es ∧ ∀ e ∈ es, e.isGpio = false

/-- 60_exceptions.md R252: a failed write: the frame is abandoned after its first k bytes, a signal and
nothing else follows, nothing is retried, the GPIO events already emitted stand, and the block is back
in Scanning. -/
def Obligations.FailedWriteSignalsAndIsNotRetried : Prop :=
  ∀ (s t : State) (bytes : List Byte) (k : Nat) (before after : List Event),
    s.phase = .complete → resetNext s = false → step s = .next t →
    t.trace = s.trace ++ before ++ .txWrite bytes (.fail k) :: after →
    after ≠ [] ∧ (∀ e ∈ after, e = .signalError) ∧ k < bytes.length ∧
    wire t.trace = wire s.trace ++ bytes.take k ∧
    t.pins = before.foldl (fun ps e => pinsAfter e ps) s.pins ∧
    t.phase = .scanning ∧ t.buf = []

/-- 60_exceptions.md R251, 70_reset_and_hazards.md R292 (marked derived in the spec): how many events one
candidate frame can cause. -/
def Obligations.EventsPerFrameAreBounded : Prop :=
  ∀ s t : State, s.phase = .complete → step s = .next t →
    ∃ es, t.trace = s.trace ++ es ∧ es.length ≤ 4 ∧
      es.countP (fun e => e = .signalError) ≤ 2 ∧ es.countP Event.isTx ≤ 1 ∧
      (∀ k, decode s.cfg.decodeExcess s.buf = .err k → es.length ≤ 3)

/-- 42_dispatch.md R200, R210, R214, R215 (R214 and R215 marked derived in the spec; that a write response
has `rw = Write` is its decision D7): every decoded request is answered with exactly one frame, which
the host's Decode reads as a Message with the request's version, pin, io and rw. -/
def Obligations.EveryRequestIsAnsweredOnce : Prop :=
  ∀ (s : State) (m : Message), s.phase = .complete → resetNext s = false → configOk s.cfg = true →
    decode s.cfg.decodeExcess s.buf = .ok m →
    ∃ t es bytes reply r, step s = .next t ∧
      t.trace = s.trace ++ es ∧ es.countP Event.isTx = 1 ∧ .txWrite bytes reply ∈ es ∧
      (∀ x, decode x bytes = .ok r) ∧
      r.version = m.version ∧ r.pin = m.pin ∧ r.io = m.io ∧ r.rw = m.rw ∧ r.data ≠ []

/-- 70_reset_and_hazards.md R271, 60_exceptions.md R244 (decisions D3, D17, D28 of the spec; the `after`
count is this model's choice, log entry 6): a reset that lands after k output events of a processing,
behind any number of idle timeouts, leaves exactly the first k of the events the processing would have
emitted, and the next steps take the timeouts, which have no effect, and the reset. -/
def Obligations.InterruptedProcessingEmitsAPrefix : Prop :=
  ∀ (s t : State) (es : List Event) (n k : Nat) (rest : List Input),
    s.phase = .complete → step { s with inputs := [] } = .next t → t.trace = s.trace ++ es →
    ∃ u, step { s with inputs := List.replicate n .idleTimeout ++ .reset k :: rest } = .next u ∧
      u.trace = s.trace ++ es.take k ∧ u.phase = .scanning ∧ u.buf = [] ∧
      runSteps (n + 1) u = .next { u with
        inputs := rest, trace := u.trace ++ List.replicate n .idleTimeout ++ [.reset],
        outcome := none, resp := none }

/-! ### The whole machine -/

/-- 10_state.md R38, R39, R41 and 00_scope.md R12 (R39 marked derived in the spec): every step keeps the
invariant, from every state that has it. -/
def Obligations.EveryStepKeepsTheInvariant : Prop :=
  ∀ s t : State, Inv s → step s = .next t → Inv t

/-- The invariant holds in the state after reset (10_state.md R49; the reset configuration is this
model's choice, log entry 2). -/
def Obligations.ResetMeetsTheInvariant : Prop := Inv State.reset

/-- What reset leaves in the block's registers (10_state.md R49, 70_reset_and_hazards.md R275, decisions
D17 and D31 of the spec), and that a machine with no input waits there. -/
def Obligations.ResetStateScansWithEmptyBuffer : Prop :=
  State.reset.phase = .scanning ∧ State.reset.buf = [] ∧ State.reset.outcome = none ∧
    State.reset.resp = none ∧ step State.reset = .next State.reset

/-- 60_exceptions.md R249 ("never fatal to the dispatcher process", and its consequence marked derived in
the spec): from the invariant no step stops, whatever the bytes, the draws and the configuration. -/
def Obligations.NoErrorIsFatal : Prop :=
  ∀ s : State, Inv s → ∃ t, step s = .next t

/-- 70_reset_and_hazards.md R274 (decision D25 of the spec): no step changes the configuration. -/
def Obligations.ConfigurationIsStatic : Prop :=
  ∀ s t : State, step s = .next t → t.cfg = s.cfg

/-- 10_state.md R45, R46 (following the GPIO is the spec's option, decision D21): a step only appends to
the trace, and the GPIO copy changes only by the GPIO events it appends. -/
def Obligations.PinsFollowExactlyTheEmittedEvents : Prop :=
  ∀ s t : State, step s = .next t →
    ∃ es, t.trace = s.trace ++ es ∧ t.pins = es.foldl (fun ps e => pinsAfter e ps) s.pins

/-- 10_state.md R45 ("no block rule reads one", decision D21 of the spec) and 20_memory.md R66, R68: the
block's behaviour depends neither on the GPIO copy nor on the events already emitted. -/
def Obligations.BlockReadsNeitherPinsNorTrace : Prop :=
  ∀ (s t : State) (pins : Vector PinState 32) (trace : List Event), step s = .next t →
    ∃ pins' es, t.trace = s.trace ++ es ∧
      step { s with pins := pins, trace := trace } =
        .next { t with pins := pins', trace := trace ++ es }

/-- The host's placement of an opcode-table word (log entries 14 and 15, this model's choice): the very
next step runs the instruction the decoder reads from the word, in every state and configuration. -/
def Obligations.FetchedWordRunsNext : Prop :=
  ∀ (s : State) (nbits w : Nat), ∃ i m,
    decodeTableWord nbits w = some i ∧ i = Instr.ofMessage m ∧
    step (s.withFetchWord nbits w) =
      mapNext toScanning (exec i { s.withFetchWord nbits w with outcome := some (.ok m) })

/-- 10_state.md R50, 00_scope.md R12, R13, 70_reset_and_hazards.md R274 (decision D25 of the spec): the
machine's step is the block's step relation, a function of the block's state with the configuration, the
draws and the inputs as arguments; around it the configuration stays, the events are appended and the
GPIO copy follows them. That the host's State carries the arguments is this model's choice (log entries
1, 3 and 5). -/
def Obligations.StepIsTheBlockStepOnItsArguments : Prop :=
  ∀ s : State, step s =
    match blockStep s.cfg s.toDraws s.inputs s.toBlock with
    | .next n    => .next (s.after n)
    | .fault f   => .fault f
    | .refused r => .refused r

/-- 20_memory.md R62, R75, 60_exceptions.md R244 (decisions D3, D16 of the spec; log entries 5 to 7): a
step takes at most one input, the next in the environment's order, and none in Complete; every other new
event is an output; no input is lost. -/
def Obligations.EveryInputIsTakenOnceInOrder : Prop :=
  ∀ s t : State, step s = .next t →
    ∃ ins es, t.trace = s.trace ++ ins ++ es ∧ ins.length ≤ 1 ∧ (∀ e ∈ es, e.isOutput = true) ∧
      s.inputs.map Input.event = ins ++ t.inputs.map Input.event ∧
      (s.phase = .complete → ins = []) ∧ (s.phase ≠ .complete → s.inputs ≠ [] → ins ≠ [])

/-- 41_framing.md R173, R175, 60_exceptions.md R244 (decision D3 of the spec; log entry 7): an idle timeout
that arrives in Complete has no effect on the processing, nor on a reset that stands behind it. -/
def Obligations.IdleTimeoutInCompleteChangesNothing : Prop :=
  ∀ s : State, s.phase = .complete →
    step { s with inputs := .idleTimeout :: s.inputs } =
      mapNext (fun t => { t with inputs := .idleTimeout :: t.inputs }) (step s)
end

