-- ==== Sys2Proof/Laws/Codec.lean ====
section
/-!
SUPPORT. What the codec's functions do, said once: packing and unpacking, the shape of a frame, the
Messages `mkMessage` builds, and what a successful Decode says of its buffer.
-/

namespace Sys2Proof

/-! ### Header fields -/

/-- A byte below 8 is its own low three bits. -/
theorem byte_of_version {b : Byte} (h : b.toNat < 8) : (b.setWidth 3).setWidth 8 = b := by
  apply BitVec.eq_of_toNat_eq; simp; omega

/-- A byte below 32 is its own low five bits. -/
theorem byte_of_pin {b : Byte} (h : b.toNat < 32) : (b.setWidth 5).setWidth 8 = b := by
  apply BitVec.eq_of_toNat_eq; simp; omega

/-- A byte below 64 is its own low six bits. -/
theorem byte_of_length {b : Byte} (h : b.toNat < 64) : (b.setWidth 6).setWidth 8 = b := by
  apply BitVec.eq_of_toNat_eq; simp; omega

set_option maxRecDepth 8000 in
theorem packH1_unpack : ∀ b : Byte, packH1 (h1Version b) (h1Pin b) = b := by decide

set_option maxRecDepth 8000 in
theorem packH2_unpack : ∀ b : Byte, packH2 (h2Io b) (h2Rw b) (h2Length b) = b := by decide

set_option maxRecDepth 8000 in
theorem h1_range : ∀ b : Byte, (h1Version b).toNat < 8 ∧ (h1Pin b).toNat < 32 := by decide

set_option maxRecDepth 8000 in
theorem h2Length_range : ∀ b : Byte, (h2Length b).toNat < 64 := by decide

set_option maxRecDepth 8000 in
theorem h1_packH1_narrow : ∀ (v : Version) (p : Pin),
    h1Version (packH1 (v.setWidth 8) (p.setWidth 8)) = v.setWidth 8 ∧
    h1Pin (packH1 (v.setWidth 8) (p.setWidth 8)) = p.setWidth 8 := by decide

set_option maxRecDepth 8000 in
theorem h2Length_packH2_narrow : ∀ (a b : Bool) (l : BitVec 6),
    h2Length (packH2 (if a then .output else .input) (if b then .write else .read) (l.setWidth 8)) =
      l.setWidth 8 ∧
    h2Io (packH2 (if a then .output else .input) (if b then .write else .read) (l.setWidth 8)) =
      (if a then .output else .input) ∧
    h2Rw (packH2 (if a then .output else .input) (if b then .write else .read) (l.setWidth 8)) =
      (if b then .write else .read) := by decide

theorem h1_packH1 {v p : Byte} (hv : v.toNat < 8) (hp : p.toNat < 32) :
    h1Version (packH1 v p) = v ∧ h1Pin (packH1 v p) = p := by
  have h := h1_packH1_narrow (v.setWidth 3) (p.setWidth 5)
  rwa [byte_of_version hv, byte_of_pin hp] at h

theorem h2_packH2 (io : Io) (rw : Rw) {l : Byte} (hl : l.toNat < 64) :
    h2Io (packH2 io rw l) = io ∧ h2Rw (packH2 io rw l) = rw ∧ h2Length (packH2 io rw l) = l := by
  have h := h2Length_packH2_narrow (io = .output) (rw = .write) (l.setWidth 6)
  rw [byte_of_length hl] at h
  cases io <;> cases rw <;> simpa [and_comm, and_left_comm, and_assoc] using h

/-! ### Frames -/

@[simp] theorem frameBytes_length (m : Message) : (frameBytes m).length = m.data.length + 5 := by
  simp [frameBytes]

theorem frameBytes_eq (m : Message) :
    frameBytes m =
      stx :: packH1 m.version m.pin :: packH2 m.io m.rw m.length :: (m.data ++ [m.sum, etx]) := rfl

@[simp] theorem frameBytes_head? (m : Message) : (frameBytes m).head? = some stx := rfl

@[simp] theorem frameBytes_getLast? (m : Message) : (frameBytes m).getLast? = some etx := by
  simp [frameBytes_eq, List.getLast?_cons]

/-! ### Well-formed Messages -/

theorem Message.wf_iff (m : Message) :
    m.wf = true ↔ m.pin.toNat < 32 ∧ m.version.toNat < 8 ∧ m.length.toNat < 64 ∧
      m.data.length = m.length.toNat ∧ m.checksum = m.sum := by
  simp [Message.wf, and_assoc]

theorem encodeMsg_of_wf {m : Message} (h : m.wf = true) : encodeMsg m = some (frameBytes m) := by
  simp [encodeMsg, (m.wf_iff.1 h).2.2.2.1]

theorem toNat_setWidth_version (v : Version) : (v.setWidth 8 : Byte).toNat = v.toNat := by
  have := v.isLt; simp; omega

theorem toNat_setWidth_pin (p : Pin) : (p.setWidth 8 : Byte).toNat = p.toNat := by
  have := p.isLt; simp; omega

/-- Every Message built from in-range fields and a payload of at most 63 bytes is well-formed. -/
theorem mkMessage_wf (v : Version) (p : Pin) (io : Io) (rw : Rw) {payload : List Byte}
    (h : payload.length ≤ 63) : (mkMessage v p io rw payload).wf = true := by
  rw [Message.wf_iff]
  refine ⟨?_, ?_, ?_, ?_, rfl⟩
  · show (p.setWidth 8 : Byte).toNat < 32
    rw [toNat_setWidth_pin]; exact p.isLt
  · show (v.setWidth 8 : Byte).toNat < 8
    rw [toNat_setWidth_version]; exact v.isLt
  · show (BitVec.ofNat 8 payload.length).toNat < 64
    simp; omega
  · show payload.length = (BitVec.ofNat 8 payload.length).toNat
    simp; omega

@[simp] theorem mkMessage_data (v : Version) (p : Pin) (io : Io) (rw : Rw) (payload : List Byte) :
    (mkMessage v p io rw payload).data = payload := rfl

theorem encodeMsg_mkMessage (v : Version) (p : Pin) (io : Io) (rw : Rw) {payload : List Byte}
    (h : payload.length ≤ 63) :
    encodeMsg (mkMessage v p io rw payload) = some (frameBytes (mkMessage v p io rw payload)) :=
  encodeMsg_of_wf (mkMessage_wf v p io rw h)

/-! ### What a successful Decode says -/

/-- If `decodeBody` answers a Message, the buffer holds its data, then its checksum, and at least one
byte more. -/
theorem decodeBody_ok {x : Excess} {n : Nat} {h1 h2 : Byte} {body : List Byte} {m : Message}
    (h : decodeBody x n h1 h2 body = .ok m) :
    5 + m.length.toNat ≤ n ∧ (x = .reject → n = 5 + m.length.toNat) ∧
    m.version = h1Version h1 ∧ m.pin = h1Pin h1 ∧ m.io = h2Io h2 ∧ m.rw = h2Rw h2 ∧
    m.length = h2Length h2 ∧ m.data = body.take m.length.toNat ∧ m.checksum = m.sum ∧
    ∃ rest, body.drop m.length.toNat = m.checksum :: rest := by
  unfold decodeBody at h
  simp only at h
  split at h
  · cases h
  rename_i hn
  split at h
  · cases h
  rename_i hx
  split at h
  · cases h
  rename_i received rest hd
  split at h
  · cases h
  rename_i hc
  simp only [ne_eq, Decidable.not_not] at hc
  simp only [DecodeResult.ok.injEq] at h
  subst h
  refine ⟨by simp only; omega, ?_, rfl, rfl, rfl, rfl, rfl, rfl, rfl, rest, ?_⟩
  · intro hr
    by_cases hne : n = 5 + (h2Length h2).toNat
    · exact hne
    · exact absurd ⟨hne, hr⟩ hx
  · simp only; rw [hd, hc]

/-- If Decode answers a Message, the buffer starts with STX and the two header bytes and ends with ETX,
and `decodeBody` answered it. -/
theorem decode_ok {x : Excess} {buf : List Byte} {m : Message} (h : decode x buf = .ok m) :
    ∃ h1 h2 body, buf = stx :: h1 :: h2 :: body ∧ buf.getLast? = some etx ∧
      decodeBody x buf.length h1 h2 body = .ok m := by
  unfold decode at h
  split at h
  · cases h
  split at h
  · cases h
  rename_i hs
  split at h
  · cases h
  rename_i he
  split at h
  · rename_i h1 h2 body _
    simp only [List.head?_cons, ne_eq, Option.some.injEq, Decidable.not_not] at hs he
    exact ⟨h1, h2, body, by rw [hs], he, h⟩
  · cases h

/-- A buffer of at least four bytes between the two markers is decided by `decodeBody`. -/
theorem decode_of_markers (x : Excess) (h1 h2 : Byte) (body : List Byte) (hb : body ≠ [])
    (hl : body.getLast? = some etx) :
    decode x (stx :: h1 :: h2 :: body) = decodeBody x (body.length + 3) h1 h2 body := by
  unfold decode
  have hlen : 0 < body.length := List.length_pos_iff.2 hb
  have h4 : ¬ (stx :: h1 :: h2 :: body).length < decodeFloor := by simp [decodeFloor]; omega
  have hlast : (stx :: h1 :: h2 :: body).getLast? = some etx := by
    simp [List.getLast?_cons, hl]
  rw [if_neg h4, if_neg (by simp), if_neg (by simp [hlast])]
  simp

end Sys2Proof
end

