-- ==== Sys2Proof/Laws/State.lean ====
section
/-!
SUPPORT. One lemma per field per update of State, so that no later proof unfolds a record update.
-/

namespace Sys2Proof.Machine


/-! ### record -/

@[simp] theorem record_cfg (e : Event) (s : State) : (record e s).cfg = s.cfg := rfl
@[simp] theorem record_phase (e : Event) (s : State) : (record e s).phase = s.phase := rfl
@[simp] theorem record_buf (e : Event) (s : State) : (record e s).buf = s.buf := rfl
@[simp] theorem record_outcome (e : Event) (s : State) : (record e s).outcome = s.outcome := rfl
@[simp] theorem record_resp (e : Event) (s : State) : (record e s).resp = s.resp := rfl
@[simp] theorem record_inputs (e : Event) (s : State) : (record e s).inputs = s.inputs := rfl
@[simp] theorem record_levelDraws (e : Event) (s : State) : (record e s).levelDraws = s.levelDraws := rfl
@[simp] theorem record_txDraws (e : Event) (s : State) : (record e s).txDraws = s.txDraws := rfl
@[simp] theorem record_drawCount (e : Event) (s : State) : (record e s).drawCount = s.drawCount := rfl
@[simp] theorem record_pins (e : Event) (s : State) : (record e s).pins = pinsAfter e s.pins := rfl
@[simp] theorem record_trace (e : Event) (s : State) : (record e s).trace = s.trace ++ [e] := rfl

/-! ### writeOutcome -/

@[simp] theorem writeOutcome_cfg (r : DecodeResult) (s : State) : (writeOutcome r s).cfg = s.cfg := rfl
@[simp] theorem writeOutcome_phase (r : DecodeResult) (s : State) : (writeOutcome r s).phase = s.phase := rfl
@[simp] theorem writeOutcome_buf (r : DecodeResult) (s : State) : (writeOutcome r s).buf = s.buf := rfl
@[simp] theorem writeOutcome_outcome (r : DecodeResult) (s : State) : (writeOutcome r s).outcome = some r := rfl
@[simp] theorem writeOutcome_resp (r : DecodeResult) (s : State) : (writeOutcome r s).resp = s.resp := rfl
@[simp] theorem writeOutcome_inputs (r : DecodeResult) (s : State) : (writeOutcome r s).inputs = s.inputs := rfl
@[simp] theorem writeOutcome_levelDraws (r : DecodeResult) (s : State) : (writeOutcome r s).levelDraws = s.levelDraws := rfl
@[simp] theorem writeOutcome_txDraws (r : DecodeResult) (s : State) : (writeOutcome r s).txDraws = s.txDraws := rfl
@[simp] theorem writeOutcome_drawCount (r : DecodeResult) (s : State) : (writeOutcome r s).drawCount = s.drawCount := rfl
@[simp] theorem writeOutcome_pins (r : DecodeResult) (s : State) : (writeOutcome r s).pins = s.pins := rfl
@[simp] theorem writeOutcome_trace (r : DecodeResult) (s : State) : (writeOutcome r s).trace = s.trace := rfl

/-! ### writeResp -/

@[simp] theorem writeResp_cfg (m : Message) (s : State) : (writeResp m s).cfg = s.cfg := rfl
@[simp] theorem writeResp_phase (m : Message) (s : State) : (writeResp m s).phase = s.phase := rfl
@[simp] theorem writeResp_buf (m : Message) (s : State) : (writeResp m s).buf = s.buf := rfl
@[simp] theorem writeResp_outcome (m : Message) (s : State) : (writeResp m s).outcome = s.outcome := rfl
@[simp] theorem writeResp_resp (m : Message) (s : State) : (writeResp m s).resp = some m := rfl
@[simp] theorem writeResp_inputs (m : Message) (s : State) : (writeResp m s).inputs = s.inputs := rfl
@[simp] theorem writeResp_levelDraws (m : Message) (s : State) : (writeResp m s).levelDraws = s.levelDraws := rfl
@[simp] theorem writeResp_txDraws (m : Message) (s : State) : (writeResp m s).txDraws = s.txDraws := rfl
@[simp] theorem writeResp_drawCount (m : Message) (s : State) : (writeResp m s).drawCount = s.drawCount := rfl
@[simp] theorem writeResp_pins (m : Message) (s : State) : (writeResp m s).pins = s.pins := rfl
@[simp] theorem writeResp_trace (m : Message) (s : State) : (writeResp m s).trace = s.trace := rfl

/-! ### toScanning -/

@[simp] theorem toScanning_cfg  (s : State) : (toScanning s).cfg = s.cfg := rfl
@[simp] theorem toScanning_phase  (s : State) : (toScanning s).phase = .scanning := rfl
@[simp] theorem toScanning_buf  (s : State) : (toScanning s).buf = [] := rfl
@[simp] theorem toScanning_outcome  (s : State) : (toScanning s).outcome = none := rfl
@[simp] theorem toScanning_resp  (s : State) : (toScanning s).resp = none := rfl
@[simp] theorem toScanning_inputs  (s : State) : (toScanning s).inputs = s.inputs := rfl
@[simp] theorem toScanning_levelDraws  (s : State) : (toScanning s).levelDraws = s.levelDraws := rfl
@[simp] theorem toScanning_txDraws  (s : State) : (toScanning s).txDraws = s.txDraws := rfl
@[simp] theorem toScanning_drawCount  (s : State) : (toScanning s).drawCount = s.drawCount := rfl
@[simp] theorem toScanning_pins  (s : State) : (toScanning s).pins = s.pins := rfl
@[simp] theorem toScanning_trace  (s : State) : (toScanning s).trace = s.trace := rfl

/-! ### onReset -/

@[simp] theorem onReset_cfg  (s : State) : (onReset s).cfg = s.cfg := rfl
@[simp] theorem onReset_phase  (s : State) : (onReset s).phase = .scanning := rfl
@[simp] theorem onReset_buf  (s : State) : (onReset s).buf = [] := rfl
@[simp] theorem onReset_outcome  (s : State) : (onReset s).outcome = none := rfl
@[simp] theorem onReset_resp  (s : State) : (onReset s).resp = none := rfl
@[simp] theorem onReset_inputs  (s : State) : (onReset s).inputs = s.inputs := rfl
@[simp] theorem onReset_levelDraws  (s : State) : (onReset s).levelDraws = s.levelDraws := rfl
@[simp] theorem onReset_txDraws  (s : State) : (onReset s).txDraws = s.txDraws := rfl
@[simp] theorem onReset_drawCount  (s : State) : (onReset s).drawCount = s.drawCount := rfl
@[simp] theorem onReset_pins  (s : State) : (onReset s).pins = s.pins := rfl
@[simp] theorem onReset_trace  (s : State) : (onReset s).trace = s.trace := rfl

/-! ### abandon -/

@[simp] theorem abandon_cfg  (s : State) : (abandon s).cfg = s.cfg := rfl
@[simp] theorem abandon_phase  (s : State) : (abandon s).phase = .scanning := rfl
@[simp] theorem abandon_buf  (s : State) : (abandon s).buf = [] := rfl
@[simp] theorem abandon_outcome  (s : State) : (abandon s).outcome = none := rfl
@[simp] theorem abandon_resp  (s : State) : (abandon s).resp = none := rfl
@[simp] theorem abandon_inputs  (s : State) : (abandon s).inputs = s.inputs := rfl
@[simp] theorem abandon_levelDraws  (s : State) : (abandon s).levelDraws = s.levelDraws := rfl
@[simp] theorem abandon_txDraws  (s : State) : (abandon s).txDraws = s.txDraws := rfl
@[simp] theorem abandon_drawCount  (s : State) : (abandon s).drawCount = s.drawCount := rfl
@[simp] theorem abandon_pins  (s : State) : (abandon s).pins = s.pins := rfl
@[simp] theorem abandon_trace  (s : State) : (abandon s).trace = s.trace ++ [.signalError] := rfl

/-! ### appendByte -/

@[simp] theorem appendByte_cfg (b : Byte) (s : State) : (appendByte b s).cfg = s.cfg := rfl
@[simp] theorem appendByte_phase (b : Byte) (s : State) : (appendByte b s).phase = s.phase := rfl
@[simp] theorem appendByte_buf (b : Byte) (s : State) : (appendByte b s).buf = s.buf ++ [b] := rfl
@[simp] theorem appendByte_outcome (b : Byte) (s : State) : (appendByte b s).outcome = s.outcome := rfl
@[simp] theorem appendByte_resp (b : Byte) (s : State) : (appendByte b s).resp = s.resp := rfl
@[simp] theorem appendByte_inputs (b : Byte) (s : State) : (appendByte b s).inputs = s.inputs := rfl
@[simp] theorem appendByte_levelDraws (b : Byte) (s : State) : (appendByte b s).levelDraws = s.levelDraws := rfl
@[simp] theorem appendByte_txDraws (b : Byte) (s : State) : (appendByte b s).txDraws = s.txDraws := rfl
@[simp] theorem appendByte_drawCount (b : Byte) (s : State) : (appendByte b s).drawCount = s.drawCount := rfl
@[simp] theorem appendByte_pins (b : Byte) (s : State) : (appendByte b s).pins = s.pins := rfl
@[simp] theorem appendByte_trace (b : Byte) (s : State) : (appendByte b s).trace = s.trace := rfl

/-! ### placeFrame -/

@[simp] theorem placeFrame_cfg (frame : List Byte) (s : State) : (placeFrame frame s).cfg = s.cfg := rfl
@[simp] theorem placeFrame_phase (frame : List Byte) (s : State) : (placeFrame frame s).phase = .complete := rfl
@[simp] theorem placeFrame_buf (frame : List Byte) (s : State) : (placeFrame frame s).buf = frame := rfl
@[simp] theorem placeFrame_outcome (frame : List Byte) (s : State) : (placeFrame frame s).outcome = none := rfl
@[simp] theorem placeFrame_resp (frame : List Byte) (s : State) : (placeFrame frame s).resp = none := rfl
@[simp] theorem placeFrame_inputs (frame : List Byte) (s : State) : (placeFrame frame s).inputs = dropResets s.inputs := rfl
@[simp] theorem placeFrame_levelDraws (frame : List Byte) (s : State) : (placeFrame frame s).levelDraws = s.levelDraws := rfl
@[simp] theorem placeFrame_txDraws (frame : List Byte) (s : State) : (placeFrame frame s).txDraws = s.txDraws := rfl
@[simp] theorem placeFrame_drawCount (frame : List Byte) (s : State) : (placeFrame frame s).drawCount = s.drawCount := rfl
@[simp] theorem placeFrame_pins (frame : List Byte) (s : State) : (placeFrame frame s).pins = s.pins := rfl
@[simp] theorem placeFrame_trace (frame : List Byte) (s : State) : (placeFrame frame s).trace = s.trace := rfl

/-! ### emit, callRead, callTx, transmit, configureForWrite: the fields none of them changes -/

@[simp] theorem emit_cfg (e : Event) (s : State) : (emit e s).cfg = s.cfg := by
  unfold emit; split <;> rfl
@[simp] theorem callRead_cfg (p : Pin) (s : State) : (callRead p s).cfg = s.cfg := by
  unfold callRead; split
  · rfl
  · exact emit_cfg ..
@[simp] theorem callTx_cfg (bytes : List Byte) (s : State) : (callTx bytes s).cfg = s.cfg := by
  unfold callTx; split
  · rfl
  · exact emit_cfg ..
@[simp] theorem transmit_cfg (bytes : List Byte) (s : State) : (transmit bytes s).cfg = s.cfg := by
  unfold transmit onWriteFail; split <;> simp
@[simp] theorem configureForWrite_cfg (p : Pin) (io : Io) (s : State) :
    (configureForWrite p io s).cfg = s.cfg := by
  unfold configureForWrite; split <;> simp
@[simp] theorem emit_phase (e : Event) (s : State) : (emit e s).phase = s.phase := by
  unfold emit; split <;> rfl
@[simp] theorem callRead_phase (p : Pin) (s : State) : (callRead p s).phase = s.phase := by
  unfold callRead; split
  · rfl
  · exact emit_phase ..
@[simp] theorem callTx_phase (bytes : List Byte) (s : State) : (callTx bytes s).phase = s.phase := by
  unfold callTx; split
  · rfl
  · exact emit_phase ..
@[simp] theorem transmit_phase (bytes : List Byte) (s : State) : (transmit bytes s).phase = s.phase := by
  unfold transmit onWriteFail; split <;> simp
@[simp] theorem configureForWrite_phase (p : Pin) (io : Io) (s : State) :
    (configureForWrite p io s).phase = s.phase := by
  unfold configureForWrite; split <;> simp
@[simp] theorem emit_buf (e : Event) (s : State) : (emit e s).buf = s.buf := by
  unfold emit; split <;> rfl
@[simp] theorem callRead_buf (p : Pin) (s : State) : (callRead p s).buf = s.buf := by
  unfold callRead; split
  · rfl
  · exact emit_buf ..
@[simp] theorem callTx_buf (bytes : List Byte) (s : State) : (callTx bytes s).buf = s.buf := by
  unfold callTx; split
  · rfl
  · exact emit_buf ..
@[simp] theorem transmit_buf (bytes : List Byte) (s : State) : (transmit bytes s).buf = s.buf := by
  unfold transmit onWriteFail; split <;> simp
@[simp] theorem configureForWrite_buf (p : Pin) (io : Io) (s : State) :
    (configureForWrite p io s).buf = s.buf := by
  unfold configureForWrite; split <;> simp
@[simp] theorem emit_outcome (e : Event) (s : State) : (emit e s).outcome = s.outcome := by
  unfold emit; split <;> rfl
@[simp] theorem callRead_outcome (p : Pin) (s : State) : (callRead p s).outcome = s.outcome := by
  unfold callRead; split
  · rfl
  · exact emit_outcome ..
@[simp] theorem callTx_outcome (bytes : List Byte) (s : State) : (callTx bytes s).outcome = s.outcome := by
  unfold callTx; split
  · rfl
  · exact emit_outcome ..
@[simp] theorem transmit_outcome (bytes : List Byte) (s : State) : (transmit bytes s).outcome = s.outcome := by
  unfold transmit onWriteFail; split <;> simp
@[simp] theorem configureForWrite_outcome (p : Pin) (io : Io) (s : State) :
    (configureForWrite p io s).outcome = s.outcome := by
  unfold configureForWrite; split <;> simp
@[simp] theorem emit_resp (e : Event) (s : State) : (emit e s).resp = s.resp := by
  unfold emit; split <;> rfl
@[simp] theorem callRead_resp (p : Pin) (s : State) : (callRead p s).resp = s.resp := by
  unfold callRead; split
  · rfl
  · exact emit_resp ..
@[simp] theorem callTx_resp (bytes : List Byte) (s : State) : (callTx bytes s).resp = s.resp := by
  unfold callTx; split
  · rfl
  · exact emit_resp ..
@[simp] theorem transmit_resp (bytes : List Byte) (s : State) : (transmit bytes s).resp = s.resp := by
  unfold transmit onWriteFail; split <;> simp
@[simp] theorem configureForWrite_resp (p : Pin) (io : Io) (s : State) :
    (configureForWrite p io s).resp = s.resp := by
  unfold configureForWrite; split <;> simp
@[simp] theorem emit_levelDraws (e : Event) (s : State) : (emit e s).levelDraws = s.levelDraws := by
  unfold emit; split <;> rfl
@[simp] theorem configureForWrite_levelDraws (p : Pin) (io : Io) (s : State) :
    (configureForWrite p io s).levelDraws = s.levelDraws := by
  unfold configureForWrite; split <;> simp
@[simp] theorem emit_txDraws (e : Event) (s : State) : (emit e s).txDraws = s.txDraws := by
  unfold emit; split <;> rfl
@[simp] theorem configureForWrite_txDraws (p : Pin) (io : Io) (s : State) :
    (configureForWrite p io s).txDraws = s.txDraws := by
  unfold configureForWrite; split <;> simp
@[simp] theorem emit_drawCount (e : Event) (s : State) : (emit e s).drawCount = s.drawCount := by
  unfold emit; split <;> rfl
@[simp] theorem configureForWrite_drawCount (p : Pin) (io : Io) (s : State) :
    (configureForWrite p io s).drawCount = s.drawCount := by
  unfold configureForWrite; split <;> simp

/-! ### The GPIO copy -/

@[simp] theorem pinAt_setPin_self (pins : Vector PinState 32) (p : Pin) (v : PinState) :
    pinAt (setPin pins p v) p = v := by
  simp [setPin, pinAt]

theorem pinAt_setPin_ne (pins : Vector PinState 32) {p q : Pin} (v : PinState) (h : q ≠ p) :
    pinAt (setPin pins p v) q = pinAt pins q := by
  unfold setPin pinAt
  rw [Vector.getElem_set_ne]
  exact fun e => h (BitVec.eq_of_toNat_eq e.symm)

@[simp] theorem setPin_setPin (pins : Vector PinState 32) (p : Pin) (v w : PinState) :
    setPin (setPin pins p v) p w = setPin pins p w := by
  simp [setPin]

/-! ### mapNext -/

@[simp] theorem mapNext_next (f : State → State) (s : State) : mapNext f (.next s) = .next (f s) := rfl

theorem mapNext_eq_next {f : State → State} {o : Host.Outcome State Fault Refusal} {t : State}
    (h : mapNext f o = .next t) : ∃ u, o = .next u ∧ t = f u := by
  cases o with
  | next u => exact ⟨u, rfl, by simpa using h.symm⟩
  | fault r => cases h
  | refused r => cases h

/-! ### closedMachine and State.after -/

@[simp] theorem closedMachine_phase (c : Config) (d : Draws) (i : List Input) (b : Block) :
    (closedMachine c d i b).phase = b.phase := rfl
@[simp] theorem closedMachine_buf (c : Config) (d : Draws) (i : List Input) (b : Block) :
    (closedMachine c d i b).buf = b.buf := rfl
@[simp] theorem closedMachine_outcome (c : Config) (d : Draws) (i : List Input) (b : Block) :
    (closedMachine c d i b).outcome = b.outcome := rfl
@[simp] theorem closedMachine_resp (c : Config) (d : Draws) (i : List Input) (b : Block) :
    (closedMachine c d i b).resp = b.resp := rfl
@[simp] theorem closedMachine_levelDraws (c : Config) (d : Draws) (i : List Input) (b : Block) :
    (closedMachine c d i b).levelDraws = d.levelDraws := rfl
@[simp] theorem closedMachine_txDraws (c : Config) (d : Draws) (i : List Input) (b : Block) :
    (closedMachine c d i b).txDraws = d.txDraws := rfl
@[simp] theorem closedMachine_drawCount (c : Config) (d : Draws) (i : List Input) (b : Block) :
    (closedMachine c d i b).drawCount = d.drawCount := rfl
@[simp] theorem closedMachine_cfg (c : Config) (d : Draws) (i : List Input) (b : Block) :
    (closedMachine c d i b).cfg = c := rfl
@[simp] theorem closedMachine_inputs (c : Config) (d : Draws) (i : List Input) (b : Block) :
    (closedMachine c d i b).inputs = i := rfl
@[simp] theorem closedMachine_pins (c : Config) (d : Draws) (i : List Input) (b : Block) :
    (closedMachine c d i b).pins = State.reset.pins := rfl
@[simp] theorem closedMachine_trace (c : Config) (d : Draws) (i : List Input) (b : Block) :
    (closedMachine c d i b).trace = [] := rfl
@[simp] theorem after_phase (s : State) (n : BlockNext) : (s.after n).phase = n.block.phase := rfl
@[simp] theorem after_buf (s : State) (n : BlockNext) : (s.after n).buf = n.block.buf := rfl
@[simp] theorem after_outcome (s : State) (n : BlockNext) : (s.after n).outcome = n.block.outcome := rfl
@[simp] theorem after_resp (s : State) (n : BlockNext) : (s.after n).resp = n.block.resp := rfl
@[simp] theorem after_levelDraws (s : State) (n : BlockNext) : (s.after n).levelDraws = n.draws.levelDraws := rfl
@[simp] theorem after_txDraws (s : State) (n : BlockNext) : (s.after n).txDraws = n.draws.txDraws := rfl
@[simp] theorem after_drawCount (s : State) (n : BlockNext) : (s.after n).drawCount = n.draws.drawCount := rfl
@[simp] theorem after_cfg (s : State) (n : BlockNext) : (s.after n).cfg = s.cfg := rfl
@[simp] theorem after_inputs (s : State) (n : BlockNext) : (s.after n).inputs = n.inputs := rfl
@[simp] theorem after_pins (s : State) (n : BlockNext) : (s.after n).pins = n.events.foldl (fun ps e => pinsAfter e ps) s.pins := rfl
@[simp] theorem after_trace (s : State) (n : BlockNext) : (s.after n).trace = s.trace ++ n.events := rfl

end Sys2Proof.Machine
end

