-- ==== Sys2Proof/Laws/Ops.lean ====
section
/-!
SUPPORT. What the shared operations do, said once: emitting with and without a pending reset, the two
calls, a transmit, a response. Proofs about the meanings cite these instead of unfolding.
-/

namespace Sys2Proof.Machine

/-! ### Pending resets -/

theorem resetDue_iff (s : State) : resetDue s = true ↔ pendingReset s.inputs = some 0 := by
  simp [resetDue]

theorem resetNext_false_iff (s : State) : resetNext s = false ↔ pendingReset s.inputs = none := by
  simp [resetNext]

theorem resetDue_eq_false {s : State} (h : resetNext s = false) : resetDue s = false := by
  simp [resetDue, (resetNext_false_iff s).1 h]

/-- No reset pending: there is no count to lower. -/
theorem countDown_of_none {inputs : List Input} (h : pendingReset inputs = none) (n : Nat) :
    countDown n inputs = inputs := by
  induction inputs with
  | nil => rfl
  | cons i rest ih =>
    cases i with
    | rxByte b => rfl
    | idleTimeout => exact congrArg _ (ih h)
    | reset k => cases h

/-- A reset already due: the count stays. -/
theorem countDown_of_due {inputs : List Input} (h : pendingReset inputs = some 0) (n : Nat) :
    countDown n inputs = inputs := by
  induction inputs with
  | nil => rfl
  | cons i rest ih =>
    cases i with
    | rxByte b => rfl
    | idleTimeout => exact congrArg _ (ih h)
    | reset k =>
      have hk : k = 0 := by simpa [pendingReset] using h
      simp [countDown, hk]

@[simp] theorem pendingReset_countDown (n : Nat) (inputs : List Input) :
    pendingReset (countDown n inputs) = (pendingReset inputs).map (· - n) := by
  induction inputs with
  | nil => rfl
  | cons i rest ih =>
    cases i with
    | rxByte b => rfl
    | idleTimeout => exact ih
    | reset k => rfl

@[simp] theorem countDown_countDown (m n : Nat) (inputs : List Input) :
    countDown n (countDown m inputs) = countDown (m + n) inputs := by
  induction inputs with
  | nil => rfl
  | cons i rest ih =>
    cases i with
    | rxByte b => rfl
    | idleTimeout => exact congrArg _ ih
    | reset k => simp [countDown, Nat.sub_sub]

@[simp] theorem countDown_zero (inputs : List Input) : countDown 0 inputs = inputs := by
  induction inputs with
  | nil => rfl
  | cons i rest ih =>
    cases i with
    | rxByte b => rfl
    | idleTimeout => exact congrArg _ ih
    | reset k => rfl

/-- Counting down changes no event the inputs will be recorded as. -/
@[simp] theorem countDown_map_event (n : Nat) (inputs : List Input) :
    (countDown n inputs).map Input.event = inputs.map Input.event := by
  induction inputs with
  | nil => rfl
  | cons i rest ih =>
    cases i with
    | rxByte b => rfl
    | idleTimeout => exact congrArg (Event.idleTimeout :: ·) ih
    | reset k => rfl

/-- Idle timeouts do not hold a reset back (60_exceptions.md R244). -/
theorem pendingReset_timeouts (n k : Nat) (rest : List Input) :
    pendingReset (List.replicate n .idleTimeout ++ .reset k :: rest) = some k := by
  induction n with
  | zero => rfl
  | succ n ih => exact ih

theorem countDown_timeouts (n j k : Nat) (rest : List Input) :
    countDown j (List.replicate n .idleTimeout ++ .reset k :: rest) =
      List.replicate n .idleTimeout ++ .reset (k - j) :: rest := by
  induction n with
  | zero => rfl
  | succ n ih => exact congrArg _ ih

theorem countDown_eq_self {s : State} (h : resetNext s = false) (n : Nat) :
    countDown n s.inputs = s.inputs :=
  countDown_of_none ((resetNext_false_iff s).1 h) n

/-- A frame placed for processing has no reset that lands in it. -/
theorem pendingReset_dropResets (inputs : List Input) : pendingReset (dropResets inputs) = none := by
  induction inputs with
  | nil => rfl
  | cons i rest ih =>
    cases i with
    | rxByte b => rfl
    | idleTimeout => exact ih
    | reset k => exact ih

@[simp] theorem resetNext_record (e : Event) (s : State) : resetNext (record e s) = resetNext s := rfl
@[simp] theorem resetNext_writeResp (m : Message) (s : State) :
    resetNext (writeResp m s) = resetNext s := rfl
@[simp] theorem resetNext_writeOutcome (r : DecodeResult) (s : State) :
    resetNext (writeOutcome r s) = resetNext s := rfl

/-! ### Emitting -/

/-- No reset pending: the event happens and nothing else changes. -/
theorem emit_clear {s : State} (h : resetNext s = false) (e : Event) : emit e s = record e s := by
  unfold emit
  rw [resetDue_eq_false h, countDown_eq_self h]
  rfl

/-- A reset due: nothing happens. -/
theorem emit_due {s : State} (h : resetDue s = true) (e : Event) : emit e s = s := by
  simp [emit, h]

/-- A reset after at least one more event: the event happens and the count goes down. -/
theorem emit_pending {s : State} {k : Nat} (h : pendingReset s.inputs = some (k + 1)) (e : Event) :
    emit e s = { record e s with inputs := countDown 1 s.inputs } := by
  simp [emit, resetDue, h]

theorem configureForWrite_clear {s : State} (h : resetNext s = false) (p : Pin) (io : Io) :
    configureForWrite p io s = if s.cfg.writeConfigure then record (.configure p io) s else s := by
  unfold configureForWrite; rw [emit_clear h]

/-! ### Calls -/

theorem callRead_clear {s : State} (h : resetNext s = false) (p : Pin) :
    callRead p s = { record (.read p (nextLevel s)) s with
      levelDraws := s.levelDraws.tail, drawCount := s.drawCount + 1 } := by
  unfold callRead
  rw [resetDue_eq_false h, emit_clear h]
  rfl

theorem callTx_clear {s : State} (h : resetNext s = false) (bytes : List Byte) :
    callTx bytes s = { record (.txWrite bytes (nextReply bytes.length s)) s with
      txDraws := s.txDraws.tail, drawCount := s.drawCount + 1 } := by
  unfold callTx
  rw [resetDue_eq_false h, emit_clear h]
  rfl

/-- A transmit with no reset pending: one `TxWrite` with its reply, and one `SignalError` after it if it
failed; one draw taken; nothing else changes. -/
theorem transmit_clear {s : State} (h : resetNext s = false) (bytes : List Byte) :
    transmit bytes s = { s with
      trace := s.trace ++ .txWrite bytes (nextReply bytes.length s) ::
        failSignal (nextReply bytes.length s),
      txDraws := s.txDraws.tail, drawCount := s.drawCount + 1 } := by
  unfold transmit onWriteFail
  rw [callTx_clear h]
  split
  · rename_i hr; simp [hr, failSignal, record, pinsAfter]
  · rename_i k hr
    rw [emit_clear (by exact h)]
    simp [hr, failSignal, record, pinsAfter]

/-- A reset due: a transmit does nothing. -/
theorem transmit_due {s : State} (h : resetDue s = true) (bytes : List Byte) :
    transmit bytes s = s := by
  unfold transmit onWriteFail
  have hc : callTx bytes s = s := by simp [callTx, h]
  rw [hc]
  split
  · rfl
  · exact emit_due h _

@[simp] theorem transmit_pins (bytes : List Byte) (s : State) : (transmit bytes s).pins = s.pins := by
  unfold transmit onWriteFail
  have hc : (callTx bytes s).pins = s.pins := by
    unfold callTx emit; split <;> rfl
  have he : ∀ u : State, (emit .signalError u).pins = u.pins := by
    intro u; unfold emit; split <;> rfl
  split
  · exact hc
  · rw [he, hc]

@[simp] theorem transmit_levelDraws (bytes : List Byte) (s : State) :
    (transmit bytes s).levelDraws = s.levelDraws := by
  unfold transmit onWriteFail
  have hc : (callTx bytes s).levelDraws = s.levelDraws := by
    unfold callTx emit; split <;> rfl
  split
  · exact hc
  · rw [emit_levelDraws, hc]

/-! ### Dispatch: each arm of exec -/

theorem exec_read (v : Version) (p : Pin) (io : Io) (data : List Byte) (s : State) :
    exec (.read v p io data) s = execRead v p io data s := rfl
theorem exec_writeOn (v : Version) (p : Pin) (io : Io) (rest : List Byte) (s : State) :
    exec (.writeOn v p io rest) s = execWriteOn v p io rest s := rfl
theorem exec_writeOff (v : Version) (p : Pin) (io : Io) (rest : List Byte) (s : State) :
    exec (.writeOff v p io rest) s = execWriteOff v p io rest s := rfl
theorem exec_writeInvalid (v : Version) (p : Pin) (io : Io) (d0 : Byte) (rest : List Byte)
    (s : State) : exec (.writeInvalid v p io d0 rest) s = execWriteInvalid v p io d0 rest s := rfl
theorem exec_writeNodata (v : Version) (p : Pin) (io : Io) (s : State) :
    exec (.writeNodata v p io) s = execWriteNodata v p io s := rfl

/-! ### Responses -/

/-- In Complete, a response with a payload of at most 63 bytes is sent, whatever the draws. -/
theorem respond_complete {s : State} (hs : s.phase = .complete) (v : Version) (p : Pin) (io : Io)
    (rw : Rw) {payload : List Byte} (h : payload.length ≤ 63) :
    respond v p io rw payload s =
      .next (transmit (frameBytes (respFor v p io rw payload))
        (writeResp (respFor v p io rw payload) s)) := by
  simp [respond, send, readResp, readTransient, hs, transmitMsg, respFor, encodeMsg_mkMessage _ _ _ _ h]

/-- Everything a response can do if it answers a next state. -/
theorem respond_next {s t : State} {v : Version} {p : Pin} {io : Io} {rw : Rw} {payload : List Byte}
    (h : respond v p io rw payload s = .next t) :
    s.phase = .complete ∧ ∃ bytes, encodeMsg (respFor v p io rw payload) = some bytes ∧
      t = transmit bytes (writeResp (respFor v p io rw payload) s) := by
  by_cases hs : s.phase = .complete
  · refine ⟨hs, ?_⟩
    simp only [respond, send, readResp, readTransient, writeResp_phase, hs, if_true,
      writeResp_resp, transmitMsg] at h
    split at h
    · rename_i bytes hb
      exact ⟨bytes, hb, by simpa using h.symm⟩
    · cases h
  · simp [respond, send, readResp, readTransient, hs] at h

/-- A transmitted Message is one Encode admits. -/
theorem transmitMsg_next {s t : State} {m : Message} (h : transmitMsg m s = .next t) :
    ∃ bytes, encodeMsg m = some bytes ∧ t = transmit bytes s := by
  unfold transmitMsg at h
  split at h
  · rename_i bytes hb
    exact ⟨bytes, hb, by simpa using h.symm⟩
  · cases h

theorem transmitMsg_of_wf {m : Message} (h : m.wf = true) (s : State) :
    transmitMsg m s = .next (transmit (frameBytes m) s) := by
  simp [transmitMsg, encodeMsg_of_wf h]

/-- The configuration's domain gives acknowledgements Encode admits. -/
theorem configOk_acks {c : Config} (h : configOk c = true) :
    c.ackHigh.length ≤ 63 ∧ c.ackLow.length ≤ 63 := by
  simp [configOk] at h; omega

/-- The configuration's domain gives a cap of at least 5. -/
theorem configOk_cap {c : Config} (h : configOk c = true) {n : Nat} (hc : c.accCap = some n) :
    5 ≤ n := by
  simp [configOk, hc] at h; omega

/-- The configuration's domain gives well-formed diagnostic Messages. -/
theorem configOk_diag {c : Config} (h : configOk c = true) {k : DecodeError} {d : Message}
    (hd : diagFor c k = some d) : d.wf = true := by
  simp only [configOk, Bool.and_eq_true] at h
  obtain ⟨⟨⟨⟨-, h1⟩, h2⟩, h3⟩, h4⟩ := h
  cases k <;> simp only [diagFor] at hd
  · rw [hd] at h1; exact h1
  · rw [hd] at h2; exact h2
  · rw [hd] at h3; exact h3
  · rw [hd] at h4; exact h4

end Sys2Proof.Machine
end

