-- ==== Sys2Proof/Laws/Step.lean ====
section
/-!
SUPPORT. What one step can be, said once: a wait, a taken input, or the processing of a candidate; and
what each reaction of the scanner can be.
-/

namespace Sys2Proof.Machine

/-- With no input and no complete candidate, a step waits. -/
theorem takeInput_nil {s : State} (h : s.inputs = []) : takeInput s = s := by
  simp [takeInput, h]

/-- An input at hand is recorded and reacted to. -/
theorem takeInput_cons {s : State} {i : Input} {rest : List Input} (h : s.inputs = i :: rest) :
    takeInput s = react i (record i.event { s with inputs := rest }) := by
  simp [takeInput, h]

theorem step_of_scanning {s : State} (h : s.phase = .scanning) : step s = .next (takeInput s) := by
  simp [step, h]

theorem step_of_accumulating {s : State} (h : s.phase = .accumulating) :
    step s = .next (takeInput s) := by
  simp [step, h]

/-- Outside Complete a step takes an input or waits. -/
theorem step_of_not_complete {s : State} (h : s.phase ≠ .complete) : step s = .next (takeInput s) := by
  unfold step
  split
  · rename_i hc; exact absurd hc h
  · rfl
  · rfl

theorem step_of_complete {s : State} (h : s.phase = .complete) : step s = onComplete s := by
  simp [step, h]

/-- Processing a candidate that decodes. -/
theorem onComplete_ok {s : State} (hs : s.phase = .complete) {m : Message}
    (hd : decode s.cfg.decodeExcess s.buf = .ok m) :
    onComplete s = mapNext toScanning (exec (Instr.ofMessage m) (writeOutcome (.ok m) s)) := by
  simp [onComplete, readOutcome, readTransient, hs, hd]

/-- Processing a candidate that does not decode. -/
theorem onComplete_err {s : State} (hs : s.phase = .complete) {k : DecodeError}
    (hd : decode s.cfg.decodeExcess s.buf = .err k) :
    onComplete s = mapNext toScanning (onDecodeError k (writeOutcome (.err k) s)) := by
  simp [onComplete, readOutcome, readTransient, hs, hd]

/-- No reset lands in the processing of a placed frame. -/
@[simp] theorem resetNext_placeFrame (frame : List Byte) (s : State) :
    resetNext (placeFrame frame s) = false :=
  (resetNext_false_iff _).2 (pendingReset_dropResets s.inputs)

/-- If the closed machine of a block answers a next state, the block's step relation answers its parts. -/
theorem blockStep_next {cfg : Config} {d : Draws} {inputs : List Input} {b : Block} {t : State}
    (h : step (closedMachine cfg d inputs b) = .next t) :
    blockStep cfg d inputs b = .next ⟨t.toBlock, t.toDraws, t.inputs, t.trace⟩ := by
  simp [blockStep, h]

/-! ### The scanner's reactions, case by case -/

theorem onByteScanning_stx (s : State) :
    onByteScanning stx s = { s with buf := [stx], phase := .accumulating } := by
  simp [onByteScanning]

theorem onByteScanning_other {b : Byte} (h : b ≠ stx) (s : State) : onByteScanning b s = s := by
  simp [onByteScanning, h]

theorem endTestLengthAware_done {s : State} (h : expectedLength s.buf = some s.buf.length) :
    endTestLengthAware s = { s with phase := .complete } := by
  simp [endTestLengthAware, h]

theorem endTestLengthAware_wait {s : State} (h : expectedLength s.buf ≠ some s.buf.length) :
    endTestLengthAware s = s := by
  simp [endTestLengthAware, h]

theorem endTestSentinel_etx (s : State) : endTestSentinel etx s = { s with phase := .complete } := by
  simp [endTestSentinel]

theorem endTestSentinel_cap {b : Byte} {s : State} {cap : Nat} (h : b ≠ etx)
    (hc : s.cfg.accCap = some cap) (hl : cap ≤ s.buf.length) : endTestSentinel b s = abandon s := by
  simp [endTestSentinel, h, hc, hl]

theorem endTestSentinel_wait {b : Byte} {s : State} (h : b ≠ etx)
    (hl : ∀ cap, s.cfg.accCap = some cap → s.buf.length < cap) : endTestSentinel b s = s := by
  unfold endTestSentinel
  rw [if_neg h]
  split
  · rfl
  · rename_i cap hc
    rw [if_neg (by have := hl cap hc; omega)]

theorem onByte_scanning {s : State} (h : s.phase = .scanning) (b : Byte) :
    onByte b s = onByteScanning b s := by
  simp [onByte, h]

theorem onByte_lengthAware {s : State} (h : s.phase = .accumulating)
    (hf : s.cfg.framing = .lengthAware) (b : Byte) :
    onByte b s = endTestLengthAware (appendByte b s) := by
  simp [onByte, h, hf]

theorem onByte_sentinel {s : State} (h : s.phase = .accumulating)
    (hf : s.cfg.framing = .sentinel) (b : Byte) :
    onByte b s = endTestSentinel b (appendByte b s) := by
  simp [onByte, h, hf]

theorem onIdleTimeout_taken {s : State} (h : s.cfg.idleTimeout = true) (hp : s.phase = .accumulating) :
    onIdleTimeout s = abandon s := by
  simp [onIdleTimeout, h, hp]

theorem onIdleTimeout_ignored {s : State} (h : s.cfg.idleTimeout = false ∨ s.phase ≠ .accumulating) :
    onIdleTimeout s = s := by
  unfold onIdleTimeout
  rw [if_neg]
  rintro ⟨a, b⟩
  rcases h with h | h
  · rw [h] at a; cases a
  · exact h b

/-- The end test's condition in the spec's arithmetic (41_framing.md R167). -/
theorem expectedLength_eq_length (buf : List Byte) :
    expectedLength buf = some buf.length ↔
      3 ≤ buf.length ∧ buf.length = 5 + (h2Length (buf.getD 2 0#8)).toNat := by
  match buf with
  | [] => simp [expectedLength]
  | [_] => simp [expectedLength]
  | [_, _] => simp [expectedLength]
  | _ :: _ :: _ :: _ => simp [expectedLength]; omega

/-- Every way `onByte` can go (41_framing.md R162 to R170). -/
theorem onByte_cases (b : Byte) (s : State) :
    onByte b s = s ∨
    (s.phase = .scanning ∧ b = stx ∧ onByte b s = { s with buf := [b], phase := .accumulating }) ∨
    (s.phase = .accumulating ∧
      (onByte b s = appendByte b s ∨ onByte b s = { appendByte b s with phase := .complete } ∨
        onByte b s = abandon (appendByte b s))) := by
  unfold onByte
  split
  · rename_i hp
    unfold onByteScanning
    split
    · rename_i hb; exact .inr (.inl ⟨hp, hb, rfl⟩)
    · exact .inl rfl
  · rename_i hp
    refine .inr (.inr ⟨hp, ?_⟩)
    split
    · unfold endTestLengthAware; split
      · exact .inr (.inl rfl)
      · exact .inl rfl
    · unfold endTestSentinel; split
      · exact .inr (.inl rfl)
      · split
        · exact .inl rfl
        · split
          · exact .inr (.inr rfl)
          · exact .inl rfl
  · exact .inl rfl

/-- `onByte` never changes what the scanner does not own. -/
theorem onByte_cfg (b : Byte) (s : State) : (onByte b s).cfg = s.cfg := by
  obtain h | ⟨-, -, h⟩ | ⟨-, h | h | h⟩ := onByte_cases b s <;> rw [h] <;> rfl

theorem react_cfg (i : Input) (s : State) : (react i s).cfg = s.cfg := by
  cases i with
  | rxByte b => exact onByte_cfg b s
  | idleTimeout =>
    show (onIdleTimeout s).cfg = s.cfg
    unfold onIdleTimeout; split <;> rfl
  | reset k => rfl

/-! ### Runs -/

theorem runSteps_zero (s : State) : runSteps 0 s = .next s := rfl

/-- A run whose first step answers a next state goes on from it. -/
theorem runSteps_succ {s t : State} (h : step s = .next t) (k : Nat) :
    runSteps (k + 1) s = runSteps k t := by
  simp [runSteps, h]

/-- Two runs in a row. -/
theorem runSteps_add {s t : State} {j : Nat} (h : runSteps j s = .next t) (k : Nat) :
    runSteps (j + k) s = runSteps k t := by
  induction j generalizing s with
  | zero =>
    have : s = t := by simpa [runSteps] using h
    rw [this, Nat.zero_add]
  | succ j ih =>
    rw [Nat.add_right_comm]
    simp only [runSteps] at h ⊢
    cases hs : step s with
    | next u => rw [hs] at h; exact ih h
    | fault r => rw [hs] at h; cases h
    | refused r => rw [hs] at h; cases h

theorem hostRun_next {M : Host.Core} {k : Nat} {s t : M.State} (h : M.step s = .next t) :
    M.run (k + 1) s = M.run k t := by rw [Host.Core.run, h]

theorem hostRun_fault {M : Host.Core} {k : Nat} {s : M.State} {r : M.Fault}
    (h : M.step s = .fault r) : M.run (k + 1) s = .fault r := by rw [Host.Core.run, h]

theorem hostRun_refused {M : Host.Core} {k : Nat} {s : M.State} {r : M.Refusal}
    (h : M.step s = .refused r) : M.run (k + 1) s = .refused r := by rw [Host.Core.run, h]

/-- `runSteps` is the host's run of the machine. -/
theorem core_run_eq (k : Nat) (s : State) : Sys2Proof.core.run k s = runSteps k s := by
  induction k generalizing s with
  | zero => rfl
  | succ k ih =>
    unfold runSteps
    cases h : step s with
    | next u => exact (hostRun_next (M := Sys2Proof.core) h).trans (ih u)
    | fault r => exact hostRun_fault (M := Sys2Proof.core) h
    | refused r => exact hostRun_refused (M := Sys2Proof.core) h

end Sys2Proof.Machine
end

