-- ==== Sys2Proof/Laws/Events.lean ====
section
/-!
SUPPORT. Which events each shared operation and each meaning emits, a pending reset included, said once
as one relation that composes: `Emits s t es`. With no reset pending every event of `es` happens; with a
reset after k events exactly the first k happen.
-/

namespace Sys2Proof.Machine

/-- The part of a list of events a budget lets happen. -/
def cut (b : Option Nat) (es : List Event) : List Event :=
  match b with
  | none   => es
  | some k => es.take k

/-- `t` is `s` after emitting `es` as far as a pending reset allows, in the fields events touch, and
with the block's own registers other than T.resp unchanged. -/
structure Emits (s t : State) (es : List Event) : Prop where
  trace   : t.trace = s.trace ++ cut (pendingReset s.inputs) es
  pins    : t.pins = (cut (pendingReset s.inputs) es).foldl (fun ps e => pinsAfter e ps) s.pins
  inputs  : t.inputs = countDown es.length s.inputs
  cfg     : t.cfg = s.cfg
  phase   : t.phase = s.phase
  buf     : t.buf = s.buf
  outcome : t.outcome = s.outcome

/-- No reset pending: nothing is cut. -/
theorem Emits.trace_clear {s t : State} {es : List Event} (h : Emits s t es)
    (hr : resetNext s = false) : t.trace = s.trace ++ es := by
  rw [h.trace, (resetNext_false_iff s).1 hr]; rfl

@[simp] theorem cut_nil (b : Option Nat) : cut b [] = [] := by cases b <;> simp [cut]

/-- A budget is shared between two lists in a row. -/
theorem cut_append (b : Option Nat) (es fs : List Event) :
    cut b es ++ cut (b.map (· - es.length)) fs = cut b (es ++ fs) := by
  cases b with
  | none => rfl
  | some k => simp [cut, List.take_append]

theorem Emits.refl_of {s t : State} (h : t.trace = s.trace) (hp : t.pins = s.pins)
    (hi : t.inputs = s.inputs) (hc : t.cfg = s.cfg) (hph : t.phase = s.phase) (hb : t.buf = s.buf)
    (ho : t.outcome = s.outcome) : Emits s t [] :=
  ⟨by simp [h], by simp [hp], by simp [hi], hc, hph, hb, ho⟩

theorem Emits.trans {s t u : State} {es fs : List Event} (h : Emits s t es) (g : Emits t u fs) :
    Emits s u (es ++ fs) := by
  have key : cut (pendingReset s.inputs) es ++ cut (pendingReset t.inputs) fs =
      cut (pendingReset s.inputs) (es ++ fs) := by
    rw [h.inputs, pendingReset_countDown, cut_append]
  refine ⟨?_, ?_, ?_, g.cfg.trans h.cfg, g.phase.trans h.phase, g.buf.trans h.buf,
    g.outcome.trans h.outcome⟩
  · rw [g.trace, h.trace, List.append_assoc, key]
  · rw [g.pins, h.pins, ← List.foldl_append, key]
  · rw [g.inputs, h.inputs, countDown_countDown, List.length_append]

/-! ### The shared operations -/

theorem emit_emits (e : Event) (s : State) : Emits s (emit e s) [e] := by
  cases hp : pendingReset s.inputs with
  | none =>
    have hr := (resetNext_false_iff s).2 hp
    rw [emit_clear hr]
    exact ⟨by simp [cut, hp], by simp [cut, hp], by simp [countDown_of_none hp], rfl, rfl, rfl, rfl⟩
  | some k =>
    cases k with
    | zero =>
      rw [emit_due ((resetDue_iff s).2 hp)]
      exact ⟨by simp [cut, hp], by simp [cut, hp], by simp [countDown_of_due hp], rfl, rfl, rfl, rfl⟩
    | succ k =>
      rw [emit_pending hp]
      exact ⟨by simp [cut, hp], by simp [cut, hp], rfl, rfl, rfl, rfl, rfl⟩

/-- A state that differs only in draws and T.resp emits the same. -/
theorem Emits.of_eq {s t u : State} {es : List Event} (h : Emits s t es) (ht : u.trace = t.trace)
    (hp : u.pins = t.pins) (hi : u.inputs = t.inputs) (hc : u.cfg = t.cfg) (hph : u.phase = t.phase)
    (hb : u.buf = t.buf) (ho : u.outcome = t.outcome) : Emits s u es :=
  ⟨ht.trans h.trace, hp.trans h.pins, hi.trans h.inputs, hc.trans h.cfg, hph.trans h.phase,
    hb.trans h.buf, ho.trans h.outcome⟩

theorem callRead_emits (p : Pin) (s : State) : Emits s (callRead p s) [.read p (nextLevel s)] := by
  have h := emit_emits (.read p (nextLevel s)) s
  unfold callRead
  split
  · rename_i hd; rwa [emit_due hd] at h
  · exact h.of_eq rfl rfl rfl rfl rfl rfl rfl

theorem callTx_emits (bytes : List Byte) (s : State) :
    Emits s (callTx bytes s) [.txWrite bytes (nextReply bytes.length s)] := by
  have h := emit_emits (.txWrite bytes (nextReply bytes.length s)) s
  unfold callTx
  split
  · rename_i hd; rwa [emit_due hd] at h
  · exact h.of_eq rfl rfl rfl rfl rfl rfl rfl

theorem transmit_emits (bytes : List Byte) (s : State) :
    Emits s (transmit bytes s)
      (.txWrite bytes (nextReply bytes.length s) :: failSignal (nextReply bytes.length s)) := by
  have h := callTx_emits bytes s
  unfold transmit onWriteFail
  split
  · rename_i hr; rw [hr] at h ⊢; exact h
  · rename_i k hr; rw [hr] at h ⊢; exact h.trans (emit_emits .signalError _)

theorem configureForWrite_emits (p : Pin) (io : Io) (s : State) :
    Emits s (configureForWrite p io s) (if s.cfg.writeConfigure then [.configure p io] else []) := by
  unfold configureForWrite
  split
  · exact emit_emits _ s
  · exact .refl_of rfl rfl rfl rfl rfl rfl rfl

/-- A response that answers a next state emits one frame, Encode of the response. -/
theorem respond_emits {s t : State} {v : Version} {p : Pin} {io : Io} {rw : Rw} {payload : List Byte}
    (h : respond v p io rw payload s = .next t) :
    ∃ bytes reply, encodeMsg (respFor v p io rw payload) = some bytes ∧
      reply = nextReply bytes.length s ∧
      Emits s t (.txWrite bytes reply :: failSignal reply) := by
  obtain ⟨-, bytes, hb, rfl⟩ := respond_next h
  refine ⟨bytes, _, hb, rfl, ?_⟩
  have h0 : Emits s (writeResp (respFor v p io rw payload) s) [] :=
    .refl_of rfl rfl rfl rfl rfl rfl rfl
  exact h0.trans (transmit_emits bytes _)

/-- Taking a decode error emits the signal, then the diagnostic frame, if `P_DIAG` has one. -/
theorem onDecodeError_emits {s t : State} {k : DecodeError} (h : onDecodeError k s = .next t) :
    (diagFor s.cfg k = none ∧ Emits s t [.signalError]) ∨
    ∃ d bytes reply, diagFor s.cfg k = some d ∧ encodeMsg d = some bytes ∧
      reply = nextReply bytes.length (emit .signalError s) ∧
      Emits s t (.signalError :: .txWrite bytes reply :: failSignal reply) := by
  unfold onDecodeError at h
  split at h
  · rename_i hd
    simp only [Host.Outcome.next.injEq] at h
    exact .inl ⟨hd, h ▸ emit_emits _ s⟩
  · rename_i d hd
    obtain ⟨bytes, hb, rfl⟩ := transmitMsg_next h
    exact .inr ⟨d, bytes, _, hd, hb, rfl, (emit_emits .signalError s).trans (transmit_emits bytes _)⟩

/-! ### The meanings -/

theorem execRead_emits {s t : State} {v : Version} {p : Pin} {io : Io} {data : List Byte}
    (h : execRead v p io data s = .next t) :
    ∃ level bytes reply, Emits s t
      ([.configure p io, .read p level] ++ .txWrite bytes reply :: failSignal reply) := by
  obtain ⟨bytes, reply, -, -, hr⟩ := respond_emits h
  exact ⟨_, bytes, reply,
    ((emit_emits (.configure p io) s).trans (callRead_emits p _)).trans hr⟩

theorem execWriteOn_emits {s t : State} {v : Version} {p : Pin} {io : Io} {rest : List Byte}
    (h : execWriteOn v p io rest s = .next t) :
    ∃ bytes reply, Emits s t ((if s.cfg.writeConfigure then [.configure p io] else []) ++
      [.setHigh p] ++ .txWrite bytes reply :: failSignal reply) := by
  obtain ⟨bytes, reply, -, -, hr⟩ := respond_emits h
  exact ⟨bytes, reply, ((configureForWrite_emits p io s).trans (emit_emits (.setHigh p) _)).trans hr⟩

theorem execWriteOff_emits {s t : State} {v : Version} {p : Pin} {io : Io} {rest : List Byte}
    (h : execWriteOff v p io rest s = .next t) :
    ∃ bytes reply, Emits s t ((if s.cfg.writeConfigure then [.configure p io] else []) ++
      [.setLow p] ++ .txWrite bytes reply :: failSignal reply) := by
  obtain ⟨bytes, reply, -, -, hr⟩ := respond_emits h
  exact ⟨bytes, reply, ((configureForWrite_emits p io s).trans (emit_emits (.setLow p) _)).trans hr⟩

theorem execWriteInvalid_emits {s t : State} {v : Version} {p : Pin} {io : Io} {d0 : Byte}
    {rest : List Byte} (h : execWriteInvalid v p io d0 rest s = .next t) :
    ∃ bytes reply, Emits s t ([.signalError] ++ .txWrite bytes reply :: failSignal reply) := by
  obtain ⟨bytes, reply, -, -, hr⟩ := respond_emits h
  exact ⟨bytes, reply, (emit_emits .signalError s).trans hr⟩

theorem execWriteNodata_emits {s t : State} {v : Version} {p : Pin} {io : Io}
    (h : execWriteNodata v p io s = .next t) :
    ∃ bytes reply, Emits s t (.txWrite bytes reply :: failSignal reply) := by
  obtain ⟨bytes, reply, -, -, hr⟩ := respond_emits h
  exact ⟨bytes, reply, hr⟩

end Sys2Proof.Machine
end

