-- ==== Sys2Proof/Laws/PerInstr.lean ====
section
/-!
SUPPORT. Statements made per constructor of Instr. The family FrameShape: every well-formed instruction
has a frame of 5 to 68 bytes between the two markers (30_encoding.md R90, R97).
-/

namespace Sys2Proof.Laws.FrameShape

/-- The frame of a well-formed instruction has a legal size and both markers. -/
def Statement (i : Instr) : Prop :=
  i.wf = true →
    minFrame ≤ (encode i).length ∧ (encode i).length ≤ maxFrame ∧
      (encode i).head? = some stx ∧ (encode i).getLast? = some etx

/-- The same for any Message of at most 63 data bytes. -/
theorem of_length {m : Message} (h : m.data.length ≤ 63) :
    minFrame ≤ (frameBytes m).length ∧ (frameBytes m).length ≤ maxFrame ∧
      (frameBytes m).head? = some stx ∧ (frameBytes m).getLast? = some etx := by
  refine ⟨?_, ?_, rfl, ?_⟩
  · simp [frameBytes, minFrame]
  · simp [frameBytes, maxFrame]
    omega
  · rw [show frameBytes m = ([stx, packH1 m.version m.pin, packH2 m.io m.rw m.length] ++ m.data ++
      [m.sum]) ++ [etx] by simp [frameBytes], List.getLast?_concat]

theorem read (v : Version) (p : Pin) (io : Io) (data : List Byte) :
    Statement (.read v p io data) := fun h =>
  of_length (of_decide_eq_true h)

theorem writeOn (v : Version) (p : Pin) (io : Io) (rest : List Byte) :
    Statement (.writeOn v p io rest) := fun h =>
  of_length (by have := of_decide_eq_true h; simp [Instr.request, mkMessage]; omega)

theorem writeOff (v : Version) (p : Pin) (io : Io) (rest : List Byte) :
    Statement (.writeOff v p io rest) := fun h =>
  of_length (by have := of_decide_eq_true h; simp [Instr.request, mkMessage]; omega)

theorem writeInvalid (v : Version) (p : Pin) (io : Io) (d0 : Byte) (rest : List Byte) :
    Statement (.writeInvalid v p io d0 rest) := fun h =>
  of_length (by simp [Instr.wf] at h; simp [Instr.request, mkMessage]; omega)

theorem writeNodata (v : Version) (p : Pin) (io : Io) :
    Statement (.writeNodata v p io) := fun _ =>
  of_length (by simp [Instr.request, mkMessage])

end Sys2Proof.Laws.FrameShape
end

