-- ==== Sys2Proof/Tests/Slice0.lean ====
section
/-!
SUPPORT. The modeller's own tests. Expected results come from 95_test_vectors.md, 30_encoding.md and the
examples of the rules, never from a run of the model. After the tests, for every statement with
hypotheses, a concrete state and operands that meet all of them together.
-/

namespace Sys2Proof.Tests

open Sys2Proof Sys2Proof.Machine

/-! ### Well-formedness: one ill-formed term per check -/

theorem test_wf_read_payload : Instr.wf (.read 1#3 0#5 .input (List.replicate 64 0#8)) = false := by decide
theorem test_wf_writeOn_payload :
    Instr.wf (.writeOn 1#3 0#5 .output (List.replicate 63 0#8)) = false := by decide
theorem test_wf_writeOff_payload :
    Instr.wf (.writeOff 1#3 0#5 .output (List.replicate 63 0#8)) = false := by decide
theorem test_wf_writeInvalid_payload :
    Instr.wf (.writeInvalid 1#3 0#5 .output 0x32#8 (List.replicate 63 0#8)) = false := by decide
theorem test_wf_writeInvalid_on : Instr.wf (.writeInvalid 1#3 0#5 .output 0x31#8 []) = false := by decide
theorem test_wf_writeInvalid_off : Instr.wf (.writeInvalid 1#3 0#5 .output 0x30#8 []) = false := by decide

/-- The longest forms are well-formed (30_encoding.md R97). -/
theorem test_wf_longest :
    Instr.wf (.read 1#3 0#5 .input (List.replicate 63 0#8)) = true ∧
    Instr.wf (.writeInvalid 7#3 31#5 .output 0xFF#8 (List.replicate 62 0xFF#8)) = true := by decide

/-! ### Decoding: frames written out bit by bit from 30_encoding.md R90 to R93
(`h1 = vvvppppp`, `h2 = irllllll`) -/

/-- V1, R109: READ, version 001, pin 00101, io 1, rw 0, length 000000, checksum 7. -/
theorem test_decode_read :
    decodeInstr .ignore [0b00000010#8, 0b00100101#8, 0b10000000#8, 0b00000111#8, 0b00000011#8] =
      .ok (.read 1#3 5#5 .output []) := rfl

/-- V2: WRITE_ON, version 001, pin 00000, io 1, rw 1, length 000001, data 0x31, checksum 0x35. -/
theorem test_decode_writeOn :
    decodeInstr .ignore
        [0b00000010#8, 0b00100000#8, 0b11000001#8, 0b00110001#8, 0b00110101#8, 0b00000011#8] =
      .ok (Instr.on 0#5) := rfl

/-- V13: WRITE_OFF, version 000, pin 00011, io 1, rw 1, length 000001, data 0x30, checksum 0x36. -/
theorem test_decode_writeOff :
    decodeInstr .ignore
        [0b00000010#8, 0b00000011#8, 0b11000001#8, 0b00110000#8, 0b00110110#8, 0b00000011#8] =
      .ok (.writeOff 0#3 3#5 .output []) := rfl

/-- V13: WRITE_INVALID, version 001, pin 01001, io 1, rw 1, length 000001, data 0, checksum 0x0D. -/
theorem test_decode_writeInvalid :
    decodeInstr .ignore
        [0b00000010#8, 0b00101001#8, 0b11000001#8, 0b00000000#8, 0b00001101#8, 0b00000011#8] =
      .ok (.writeInvalid 1#3 9#5 .output 0x00#8 []) := rfl

/-- V13: WRITE_NODATA, version 001, pin 00111, io 0, rw 1, length 000000, checksum 9. -/
theorem test_decode_writeNodata :
    decodeInstr .ignore [0b00000010#8, 0b00100111#8, 0b01000000#8, 0b00001001#8, 0b00000011#8] =
      .ok (.writeNodata 1#3 7#5 .input) := rfl

/-- The match words of the opcode table (30_encoding.md R100) read as their rows. WRITE_INVALID's own
match word has length 0 and d0 0, which R100's constraints give to WRITE_NODATA. -/
theorem test_table_words :
    decodeTableWord 16 0x0000 = some (.read 0#3 0#5 .input []) ∧
    decodeTableWord 16 0x4031 = some (.writeOn 0#3 0#5 .input []) ∧
    decodeTableWord 16 0x4030 = some (.writeOff 0#3 0#5 .input []) ∧
    decodeTableWord 16 0x4100 = some (.writeInvalid 0#3 0#5 .input 0x00#8 []) ∧
    decodeTableWord 16 0x4000 = some (.writeNodata 0#3 0#5 .input) := by decide

/-! ### The codec: V13 to V16, R144 -/

/-- `ON 0` encoded (V13). -/
theorem test_encode_on : encode (Instr.on 0#5) = [0x02#8, 0x20#8, 0xC1#8, 0x31#8, 0x35#8, 0x03#8] := by
  decide

/-- V14: an out-of-range version is masked in the header, not in the checksum; a wrong data length is
refused. -/
theorem test_encode_outside :
    encodeMsg ⟨9#8, 0#8, .output, .write, 1#8, [0x31#8], 0#8⟩ =
        some [0x02#8, 0x20#8, 0xC1#8, 0x31#8, 0x3D#8, 0x03#8] ∧
    encodeMsg ⟨1#8, 0#8, .output, .write, 1#8, [], 0#8⟩ = none := by decide

/-- V15: one buffer per check, in check order. -/
theorem test_decode_checks :
    decode .ignore [0x02#8, 0x25#8, 0x03#8] = .err .frameTooShort ∧
    decode .ignore [0#8, 0#8, 0#8, 0#8] = .err .invalidStart ∧
    decode .ignore [0x02#8, 0x20#8, 0xC2#8, 0x31#8, 0x35#8] = .err .invalidEnd ∧
    decode .ignore [0x02#8, 0x20#8, 0xC2#8, 0x31#8, 0x35#8, 0x03#8] = .err .frameTooShort ∧
    decode .reject [0x02#8, 0x20#8, 0x80#8, 0x02#8, 0x55#8, 0x03#8] = .err .invalidEnd ∧
    decode .ignore [0x02#8, 0x25#8, 0x80#8, 0x08#8, 0x03#8] = .err .checksumMismatch := by decide

/-- V15: under `IGNORE` an excess byte is not looked at. -/
theorem test_decode_excess :
    decodeInstr .ignore [0x02#8, 0x20#8, 0x80#8, 0x02#8, 0x55#8, 0x03#8] =
      .ok (Instr.get 0#5 .output) := rfl

/-- R144: a flipped length bit can go unnoticed. -/
theorem test_length_flip_accepted :
    decodeInstr .ignore (flipBit [0x02#8, 0x20#8, 0x41#8, 0x02#8, 0x05#8, 0x03#8] 2 0) =
      .ok (.writeNodata 1#3 0#5 .input) := rfl

/-! ### Steps -/

/-- The next state, where there is one. -/
def nextOr (s : State) : State :=
  match step s with
  | .next t => t
  | _       => s

/-- The outcome is a next state. -/
def isNext (o : Host.Outcome State Fault Refusal) : Bool :=
  match o with
  | .next _ => true
  | _       => false

theorem step_nextOr {s : State} (h : isNext (step s) = true) : step s = .next (nextOr s) := by
  unfold nextOr
  cases hs : step s <;> simp_all [isNext]

/-- A state about to process a frame, in the reference configuration, with the draws a vector gives. -/
def done (frame : List Byte) (levels : List Bool) (replies : List TxReply) : State :=
  { State.reset with phase := .complete, buf := frame, levelDraws := levels, txDraws := replies }

/-- V30: READ of pin 5 as output, the line high. -/
theorem test_step_read :
    (nextOr (done [0x02#8, 0x25#8, 0x80#8, 0x07#8, 0x03#8] [true] [.ok])).trace =
      [.configure 5#5 .output, .read 5#5 true,
        .txWrite [0x02#8, 0x25#8, 0x81#8, 0x31#8, 0x39#8, 0x03#8] .ok] := by decide

/-- V40: WRITE_ON whose response fails after 3 bytes: the pin stays high, one signal, back in Scanning. -/
theorem test_step_writeOn_failed :
    let t := nextOr (done [0x02#8, 0x20#8, 0xC1#8, 0x31#8, 0x35#8, 0x03#8] [] [.fail 3])
    t.trace = [.configure 0#5 .output, .setHigh 0#5,
      .txWrite [0x02#8, 0x20#8, 0xC1#8, 0x31#8, 0x35#8, 0x03#8] (.fail 3), .signalError] ∧
    wire t.trace = [0x02#8, 0x20#8, 0xC1#8] ∧ pinAt t.pins 0#5 = ⟨.output, .high⟩ ∧
    t.phase = .scanning ∧ t.buf = [] := by decide

/-- V30: WRITE_OFF of pin 3, version 0. -/
theorem test_step_writeOff :
    (nextOr (done [0x02#8, 0x03#8, 0xC1#8, 0x30#8, 0x36#8, 0x03#8] [] [.ok])).trace =
      [.configure 3#5 .output, .setLow 3#5,
        .txWrite [0x02#8, 0x03#8, 0xC1#8, 0x30#8, 0x36#8, 0x03#8] .ok] := by decide

/-- V30: WRITE_INVALID. -/
theorem test_step_writeInvalid :
    (nextOr (done [0x02#8, 0x23#8, 0xC1#8, 0x32#8, 0x39#8, 0x03#8] [] [.ok])).trace =
      [.signalError, .txWrite [0x02#8, 0x23#8, 0xCC#8, 0x69#8, 0x6E#8, 0x76#8, 0x61#8, 0x6C#8, 0x69#8,
        0x64#8, 0x20#8, 0x64#8, 0x61#8, 0x74#8, 0x61#8, 0xB3#8, 0x03#8] .ok] := by decide

/-- V30: WRITE_NODATA. -/
theorem test_step_writeNodata :
    (nextOr (done [0x02#8, 0x27#8, 0x40#8, 0x09#8, 0x03#8] [] [.ok])).trace =
      [.txWrite [0x02#8, 0x27#8, 0x47#8, 0x6E#8, 0x6F#8, 0x20#8, 0x64#8, 0x61#8, 0x74#8, 0x61#8,
        0xA7#8, 0x03#8] .ok] := by decide

/-- V50: a reset after `SetHigh` cuts the processing: no `TxWrite`; the pin is still high. -/
theorem test_step_reset_inside :
    let t := nextOr { done [0x02#8, 0x20#8, 0xC1#8, 0x31#8, 0x35#8, 0x03#8] [] [.ok] with
      inputs := [.reset 2] }
    t.trace = [.configure 0#5 .output, .setHigh 0#5] ∧ t.phase = .scanning ∧
    pinAt t.pins 0#5 = ⟨.output, .high⟩ ∧ (nextOr t).trace = t.trace ++ [.reset] := by decide

/-- R244: an idle timeout has no effect in Complete and does not hold back a reset that overrides the
processing; both are taken in Scanning. -/
theorem test_step_timeout_then_reset :
    let t := nextOr { done [0x02#8, 0x20#8, 0xC1#8, 0x31#8, 0x35#8, 0x03#8] [] [.ok] with
      inputs := [.idleTimeout, .reset 0] }
    t.trace = [] ∧ t.phase = .scanning ∧ pinAt t.pins 0#5 = ⟨.unconfigured, .unknown⟩ ∧
    (nextOr (nextOr t)).trace = [.idleTimeout, .reset] := by decide

/-- V30: the block's step relation with the parameters of R50 as arguments. -/
theorem test_blockStep_ack :
    (match blockStep { Config.reference with writeConfigure := false, ackHigh := [0x6F#8, 0x6B#8] }
        ⟨[], [.ok], 0⟩ [] ⟨.complete, [0x02#8, 0x20#8, 0xC1#8, 0x31#8, 0x35#8, 0x03#8], none, none⟩ with
      | .next n => n.events
      | _       => []) =
    [.setHigh 0#5, .txWrite [0x02#8, 0x20#8, 0xC2#8, 0x6F#8, 0x6B#8, 0xDF#8, 0x03#8] .ok] := by decide

/-- V20: sentinel framing with a cap of 5 overflows on the fifth byte. -/
theorem test_step_overflow :
    let t := nextOr { State.reset with
      cfg := { Config.reference with framing := .sentinel, accCap := some 5 }, phase := .accumulating,
      buf := [0x02#8, 0x20#8, 0xC1#8, 0x31#8], inputs := [.rxByte 0x35#8] }
    t.trace = [.rxByte 0x35#8, .signalError] ∧ t.phase = .scanning ∧ t.buf = [] := by decide

/-- V20: in LENGTH_AWARE mode an end marker inside the data does not end the frame; in SENTINEL mode it
does. -/
theorem test_step_inner_end_marker :
    let s : State := { State.reset with
      phase := .accumulating, buf := [0x02#8, 0x20#8, 0xC2#8, 0x31#8], inputs := [.rxByte 0x03#8] }
    (nextOr s).phase = .accumulating ∧
    (nextOr { s with cfg := Config.original }).phase = .complete := by decide

/-! ### The statements' hypotheses are met -/

/-- READ of pin 5 (V1). -/
def readMsg : Message := mkMessage 1#3 5#5 .output .read []
/-- WRITE of pin 31 with the largest payload (V13, last row). -/
def bigMsg : Message := mkMessage 7#3 31#5 .output .write (List.replicate 63 0xFF#8)
/-- A WRITE_ON request with two data bytes (V15, last rows). -/
def pairMsg : Message := mkMessage 1#3 0#5 .output .write [0x31#8, 0x30#8]
/-- The state about to process READ of pin 5. -/
def doneRead : State := done (frameBytes readMsg) [true] [.ok]
/-- The state about to process a frame with a wrong checksum (V15). -/
def doneBad : State := done [0x02#8, 0x25#8, 0x80#8, 0x08#8, 0x03#8] [] [.fail 7]
/-- The reference configuration with sentinel framing. -/
def sentinelCfg : Config := { Config.reference with framing := .sentinel }

/-- EncodeLaysOutTheFrame, at both ends of the length range, a data offset included. -/
theorem witness_EncodeLaysOutTheFrame :
    readMsg.wf = true ∧ readMsg.length = 0#8 ∧ bigMsg.wf = true ∧ bigMsg.length = 63#8 ∧
      62 < bigMsg.length.toNat := by decide

/-- HeaderFieldsStandAtTheirBits, at the edges of the fields (V10, V11, V12). -/
theorem witness_HeaderFieldsStandAtTheirBits :
    packH1 1#8 31#8 = 0x3F#8 ∧ packH2 .input .write 1#8 = 0x41#8 ∧ h1Version 0xC1#8 = 6#8 ∧
      h2Length 0x25#8 = 37#8 ∧ (4 < 5 ∧ 5 < 8 ∧ 7 < 8) := by decide

/-- EncodeMasksHeaderAndSumsRawFields: each clause (V14). -/
theorem witness_EncodeMasksHeaderAndSumsRawFields :
    (let m : Message := ⟨1#8, 0#8, .output, .write, 1#8, [], 0#8⟩
     m.data.length ≠ m.length.toNat) ∧
    (let m : Message := ⟨9#8, 33#8, .output, .write, 64#8, List.replicate 64 0#8, 0#8⟩
     m.data.length = m.length.toNat) := by decide

/-- DecodeReportsTheFirstFailingCheck: each clause, at the edge of its range (V15). -/
theorem witness_DecodeReportsTheFirstFailingCheck :
    ([0x02#8, 0x25#8, 0x03#8] : List Byte).length < 4 ∧
    (0x03#8 : Byte) ≠ 0x02#8 ∧ (0x04#8 : Byte) ≠ 0x03#8 ∧
    -- bound: 4 bytes with length 0
    ([0x02#8, 0x00#8, 0x00#8, 0x03#8] : List Byte).length < 3 + (0x00#8 : Byte).toNat % 64 + 2 ∧
    -- checksum: exactly 5 bytes with length 0
    (let buf : List Byte := [0x02#8, 0x25#8, 0x80#8] ++ ([0x08#8] ++ [0x03#8])
     let len := (0x80#8 : Byte).toNat % 64
     3 + len + 2 ≤ buf.length ∧ buf.length = 5 + len ∧
      buf[3 + len]? ≠ some (checksum (h1Version 0x25#8) (h1Pin 0x25#8) (h2Io 0x80#8) (h2Rw 0x80#8)
        (h2Length 0x80#8) (([0x08#8] : List Byte).take len))) ∧
    -- excess: 6 bytes with length 0, the checksum wrong too
    (let buf : List Byte := [0x02#8, 0x25#8, 0x80#8] ++ ([0x08#8, 0x55#8] ++ [0x03#8])
     5 + (0x80#8 : Byte).toNat % 64 < buf.length ∧ decode .ignore buf = .err .checksumMismatch) := by
  decide

theorem witness_ExcessBytesAreIgnoredOrRejected :
    readMsg.wf = true ∧ ([0x55#8] : List Byte) ≠ [] := by decide

theorem witness_DecodedMessageIsWellFormed :
    decode .reject (frameBytes bigMsg) = .ok bigMsg := by decide +kernel

theorem witness_DecodeOfEncodeIsTheMessage : readMsg.wf = true ∧ bigMsg.wf = true := by decide

theorem witness_DecodeOfEncodeIsTheInstruction :
    Instr.wf (.read 0#3 31#5 .input (List.replicate 63 0x02#8)) = true ∧
    Instr.wf (.writeOn 7#3 0#5 .output (List.replicate 62 0x03#8)) = true ∧
    Instr.wf (.writeOff 0#3 3#5 .output []) = true ∧
    Instr.wf (.writeInvalid 1#3 9#5 .input 0x00#8 [0x31#8]) = true ∧
    Instr.wf (.writeNodata 1#3 7#5 .input) = true := by decide

/-- EncodeOfDecodedIsTheBuffer: an exact buffer, and one with an excess byte (V15). -/
theorem witness_EncodeOfDecodedIsTheBuffer :
    decode .reject (frameBytes readMsg) = .ok readMsg ∧
      (frameBytes readMsg).length = 5 + readMsg.length.toNat ∧
    decode .ignore [0x02#8, 0x25#8, 0x80#8, 0x07#8, 0x55#8, 0x03#8] = .ok readMsg := by decide

/-- SingleBitFlipOutsideLengthIsCaught: header, `rw` bit, first data byte, checksum byte. -/
theorem witness_SingleBitFlipOutsideLengthIsCaught :
    pairMsg.wf = true ∧ 7 < 8 ∧ ((2 : Nat) = 2 ∧ 6 ≤ 6) ∧
      (3 ≤ 3 ∧ 3 ≤ 3 + pairMsg.length.toNat) ∧ (3 ≤ 5 ∧ 5 ≤ 3 + pairMsg.length.toNat) := by decide

theorem witness_FlippedMarkerIsReported : readMsg.wf = true ∧ 0 < 8 ∧ 7 < 8 := by decide

theorem witness_ReorderedDataIsNotDetected :
    pairMsg.wf = true ∧ ([0x30#8, 0x31#8] : List Byte).Perm pairMsg.data := by decide

/-- RequestMatchesExactlyItsRow: one Message per command. -/
theorem witness_RequestMatchesExactlyItsRow :
    readMsg.wf = true ∧ readMsg.command = .read ∧
    pairMsg.wf = true ∧ pairMsg.command = .writeOn ∧
    bigMsg.wf = true ∧ bigMsg.command = .writeInvalid ∧
    (Instr.off 3#5).request.wf = true ∧ (Instr.off 3#5).request.command = .writeOff ∧
    (Instr.writeNodata 1#3 7#5 .input).request.wf = true ∧
    (Instr.writeNodata 1#3 7#5 .input).request.command = .writeNodata := by decide

theorem witness_InstructionKeepsTheWholeRequest : bigMsg.wf = true ∧ pairMsg.wf = true := by decide

/-- The five completion statements: READ, WRITE_ON, WRITE_OFF, WRITE_INVALID, WRITE_NODATA. -/
theorem witness_ReadConfiguresSamplesAndAnswers :
    doneRead.phase = .complete ∧ resetNext doneRead = false := by decide
theorem witness_WriteOnDrivesHighAndConfirms :
    doneRead.phase = .complete ∧ resetNext doneRead = false ∧ configOk doneRead.cfg = true := by decide
theorem witness_WriteOffDrivesLowAndConfirms :
    let s : State := { doneRead with
      cfg := { Config.reference with ackLow := List.replicate 63 0x6F#8, writeConfigure := false },
      inputs := [.rxByte 0x02#8] }
    s.phase = .complete ∧ resetNext s = false ∧ configOk s.cfg = true := by decide
theorem witness_WriteInvalidSignalsAndAnswers :
    doneRead.phase = .complete ∧ resetNext doneRead = false := by decide
theorem witness_WriteNodataAnswersOnly :
    doneRead.phase = .complete ∧ resetNext doneRead = false := by decide

/-- The next state of a meaning, where there is one. -/
def execOr (i : Instr) (s : State) : State :=
  match exec i s with
  | .next t => t
  | _       => s

theorem exec_execOr {i : Instr} {s : State} (h : isNext (exec i s) = true) :
    exec i s = .next (execOr i s) := by
  unfold execOr
  cases hs : exec i s <;> simp_all [isNext]

/-- GpioCommandsTouchOnlyTheirPin: each command, another pin, and a landing reset. -/
theorem witness_GpioCommandsTouchOnlyTheirPin :
    exec (.read 1#3 5#5 .output []) doneRead =
      .next (execOr (.read 1#3 5#5 .output []) doneRead) ∧
    exec (.writeOn 1#3 5#5 .output []) { doneRead with inputs := [.reset 1] } =
      .next (execOr (.writeOn 1#3 5#5 .output []) { doneRead with inputs := [.reset 1] }) ∧
    exec (.writeOff 1#3 5#5 .output []) doneRead =
      .next (execOr (.writeOff 1#3 5#5 .output []) doneRead) ∧ (6#5 : Pin) ≠ 5#5 :=
  ⟨exec_execOr (by decide), exec_execOr (by decide), exec_execOr (by decide), by decide⟩

theorem witness_RejectedWritesTouchNoPin :
    exec (.writeInvalid 1#3 5#5 .output 0x32#8 []) doneRead =
      .next (execOr (.writeInvalid 1#3 5#5 .output 0x32#8 []) doneRead) ∧
    exec (.writeNodata 1#3 5#5 .output) { doneRead with inputs := [.reset 0] } =
      .next (execOr (.writeNodata 1#3 5#5 .output) { doneRead with inputs := [.reset 0] }) :=
  ⟨exec_execOr (by decide), exec_execOr (by decide)⟩

theorem witness_CommandsFaultOutsideComplete : State.reset.phase ≠ .complete := by decide

/-- ScanningOpensOnStartMarkerOnly: both branches. -/
theorem witness_ScanningOpensOnStartMarkerOnly :
    let s : State := { State.reset with inputs := [.rxByte 0x02#8] }
    let t : State := { State.reset with inputs := [.rxByte 0x03#8] }
    s.phase = .scanning ∧ s.inputs = .rxByte 0x02#8 :: [] ∧
    t.phase = .scanning ∧ t.inputs = .rxByte 0x03#8 :: [] := by decide

/-- LengthAwareFrameEndsByItsLength: the byte before the last, and the last. -/
theorem witness_LengthAwareFrameEndsByItsLength :
    let s : State := { State.reset with
      phase := .accumulating, buf := [0x02#8, 0x25#8, 0x80#8], inputs := [.rxByte 0x07#8] }
    let t : State := { State.reset with
      phase := .accumulating, buf := [0x02#8, 0x25#8, 0x80#8, 0x07#8], inputs := [.rxByte 0x03#8] }
    s.phase = .accumulating ∧ s.cfg.framing = .lengthAware ∧ s.inputs = .rxByte 0x07#8 :: [] ∧
    t.phase = .accumulating ∧ t.cfg.framing = .lengthAware ∧ t.inputs = .rxByte 0x03#8 :: [] ∧
      (s.buf ++ [0x07#8]).length = 4 ∧ (t.buf ++ [0x03#8]).length = 5 := by decide

/-- SentinelFrameEndsAtEndMarkerOrCap: an end marker; one byte below the cap; at the cap. -/
theorem witness_SentinelFrameEndsAtEndMarkerOrCap :
    let s : State := { State.reset with
      cfg := { sentinelCfg with accCap := some 5 }, phase := .accumulating,
      buf := [0x02#8, 0x20#8, 0xC1#8], inputs := [.rxByte 0x31#8] }
    s.phase = .accumulating ∧ s.cfg.framing = .sentinel ∧ s.inputs = .rxByte 0x31#8 :: [] ∧
    (0x31#8 : Byte) ≠ 0x03#8 ∧ s.cfg.accCap = some 5 ∧ (s.buf ++ [0x31#8]).length < 5 ∧
    5 ≤ (s.buf ++ [0x31#8, 0x35#8]).length := by decide

/-- IdleTimeoutAbandonsTheCandidate: both clauses. -/
theorem witness_IdleTimeoutAbandonsTheCandidate :
    let s : State := { State.reset with
      phase := .accumulating, buf := [0x02#8, 0x25#8], inputs := [.idleTimeout] }
    s.phase ≠ .complete ∧ s.inputs = .idleTimeout :: [] ∧ s.cfg.idleTimeout = true ∧
    ({ s with phase := .scanning, buf := [] } : State).phase = .scanning ∧
    ({ s with cfg := Config.original } : State).cfg.idleTimeout = false := by decide

theorem witness_ResetReturnsToScanningSilently :
    let s : State := { State.reset with
      phase := .accumulating, buf := [0x02#8, 0x20#8, 0xC1#8], inputs := [.reset 0] }
    s.phase ≠ .complete ∧ s.inputs = .reset 0 :: [] := by decide

/-- OneByteAtATimeAndNoneWhileComplete: each clause. -/
theorem witness_OneByteAtATimeAndNoneWhileComplete :
    let s : State := { State.reset with inputs := [.rxByte 0x02#8] }
    let t : State := { doneRead with inputs := [.rxByte 0x02#8] }
    (State.reset.phase ≠ .complete ∧ State.reset.inputs = []) ∧
    (s.phase ≠ .complete ∧ s.inputs = .rxByte 0x02#8 :: []) ∧
    (t.phase = .complete ∧ step t = .next (nextOr t)) :=
  ⟨by decide, by decide, by decide, step_nextOr (by decide)⟩

theorem witness_LengthAwareServesFrameAfterGarbage :
    let s : State := { State.reset with
      inputs := rxAll ([0xFF#8, 0x00#8, 0x03#8, 0x55#8] ++ frameBytes readMsg) ++ [.idleTimeout] }
    s.phase = .scanning ∧ s.buf = [] ∧ s.cfg.framing = .lengthAware ∧
    stx ∉ ([0xFF#8, 0x00#8, 0x03#8, 0x55#8] : List Byte) ∧ readMsg.wf = true := by decide

theorem witness_SentinelServesFrameWithoutInnerEndMarker :
    let s : State := { State.reset with
      cfg := { sentinelCfg with accCap := some 5 }, inputs := rxAll (frameBytes readMsg) ++ [] }
    s.phase = .scanning ∧ s.buf = [] ∧ s.cfg.framing = .sentinel ∧ readMsg.wf = true ∧
    etx ∉ (frameBytes readMsg).tail.dropLast ∧ s.cfg.accCap = some 5 ∧
    5 + readMsg.length.toNat ≤ 5 := by decide

/-- SentinelCutsFrameAtInnerEndMarker: READ of pin 1, whose checksum is 3 (V22). -/
theorem witness_SentinelCutsFrameAtInnerEndMarker :
    let m : Message := mkMessage 1#3 1#5 .output .read []
    let s : State := { State.reset with cfg := sentinelCfg, inputs := rxAll (frameBytes m) ++ [] }
    s.phase = .scanning ∧ s.buf = [] ∧ s.cfg.framing = .sentinel ∧ m.wf = true ∧
    frameBytes m = stx :: [0x21#8, 0x80#8] ++ etx :: [etx] ∧ ([etx] : List Byte) ≠ [] ∧
    etx ∉ ([0x21#8, 0x80#8] : List Byte) ∧ s.cfg.accCap = some 68 ∧ 2 + 1 < 68 := by decide

theorem witness_LengthAwareCandidateCompletesWithin67Bytes :
    let bytes : List Byte := List.replicate 67 0xFF#8
    let s : State := { State.reset with inputs := .rxByte stx :: rxAll bytes ++ [] }
    s.phase = .scanning ∧ s.cfg.framing = .lengthAware ∧ bytes.length = 67 := by decide

/-- The invariant of a state about to process an exact frame. -/
theorem inv_doneRead : Inv doneRead where
  cfg := by decide
  shape := ⟨by decide, (by decide : expectedLength doneRead.buf = some doneRead.buf.length)⟩
  bound := fun n h => by
    have : (68 : Nat) = n := by simpa [doneRead, done, State.reset, Config.reference, bufMax, maxFrame] using h
    subst this
    decide
  outcome := rfl
  resp := rfl

/-- The same in SENTINEL mode. -/
theorem inv_doneRead_sentinel : Inv { doneRead with cfg := sentinelCfg } where
  cfg := by decide
  shape := ⟨by decide, (by decide : doneRead.buf.getLast? = some etx)⟩
  bound := fun n h => by
    have : (68 : Nat) = n := by simpa [sentinelCfg, Config.reference, bufMax] using h
    subst this
    decide
  outcome := rfl
  resp := rfl

/-- FramingExcludesDecodeErrors: both modes. -/
theorem witness_FramingExcludesDecodeErrors :
    (Inv doneRead ∧ doneRead.phase = .complete ∧ doneRead.cfg.framing = .lengthAware) ∧
    (Inv { doneRead with cfg := sentinelCfg } ∧ sentinelCfg.framing = .sentinel ∧
      sentinelCfg.decodeExcess = .ignore) :=
  ⟨⟨inv_doneRead, rfl, rfl⟩, inv_doneRead_sentinel, rfl, rfl⟩

theorem witness_StepRunsTheDecodedInstruction :
    doneRead.phase = .complete ∧
    decodeInstr doneRead.cfg.decodeExcess doneRead.buf = .ok (.read 1#3 5#5 .output []) := ⟨rfl, rfl⟩

/-- CompleteAlwaysReturnsToScanning: each clause. -/
theorem witness_CompleteAlwaysReturnsToScanning :
    (doneRead.phase = .complete ∧ decode doneRead.cfg.decodeExcess doneRead.buf = .ok readMsg ∧
      step doneRead = .next (nextOr doneRead)) ∧
    (doneBad.phase = .complete ∧
      decode doneBad.cfg.decodeExcess doneBad.buf = .err .checksumMismatch) :=
  ⟨⟨by decide, by decide, step_nextOr (by decide)⟩, by decide⟩

/-- The reference configuration with a diagnostic frame for a checksum error. -/
def diagCfg : Config := { Config.reference with diag := ⟨none, none, none, some readMsg⟩ }

/-- DecodeErrorSignalsAndReports: without and with a diagnostic Message. -/
theorem witness_DecodeErrorSignalsAndReports :
    doneBad.phase = .complete ∧ resetNext doneBad = false ∧ configOk doneBad.cfg = true ∧
    decode doneBad.cfg.decodeExcess doneBad.buf = .err .checksumMismatch ∧
    diagFor doneBad.cfg .checksumMismatch = none ∧
    configOk diagCfg = true ∧ diagFor diagCfg .checksumMismatch = some readMsg := by decide

theorem witness_DecodeErrorCausesNoGpioEvent :
    doneBad.phase = .complete ∧
    decode doneBad.cfg.decodeExcess doneBad.buf = .err .checksumMismatch ∧
    step doneBad = .next (nextOr doneBad) := ⟨by decide, by decide, step_nextOr (by decide)⟩

/-- FailedWriteSignalsAndIsNotRetried: the diagnostic frame of a decode error fails; the listed 7 is
taken modulo the 5 bytes of the frame. -/
theorem witness_FailedWriteSignalsAndIsNotRetried :
    let s : State := { doneBad with cfg := diagCfg }
    s.phase = .complete ∧ resetNext s = false ∧ step s = .next (nextOr s) ∧
    (nextOr s).trace =
      s.trace ++ [.signalError] ++ .txWrite (frameBytes readMsg) (.fail 2) :: [.signalError] :=
  ⟨by decide, by decide, step_nextOr (by decide), by decide⟩

theorem witness_EventsPerFrameAreBounded :
    let s : State := { doneBad with cfg := diagCfg }
    s.phase = .complete ∧ step s = .next (nextOr s) ∧
    decode s.cfg.decodeExcess s.buf = .err .checksumMismatch :=
  ⟨by decide, step_nextOr (by decide), by decide⟩

theorem witness_EveryRequestIsAnsweredOnce :
    doneRead.phase = .complete ∧ resetNext doneRead = false ∧ configOk doneRead.cfg = true ∧
    decode doneRead.cfg.decodeExcess doneRead.buf = .ok readMsg := by decide

theorem witness_InterruptedProcessingEmitsAPrefix :
    doneRead.phase = .complete ∧
    step { doneRead with inputs := [] } = .next (nextOr { doneRead with inputs := [] }) ∧
    (nextOr { doneRead with inputs := [] }).trace = doneRead.trace ++
      [.configure 5#5 .output, .read 5#5 true,
        .txWrite [0x02#8, 0x25#8, 0x81#8, 0x31#8, 0x39#8, 0x03#8] .ok] :=
  ⟨by decide, step_nextOr (by decide), by decide⟩

/-- InterruptedProcessingEmitsAPrefix, EveryInputIsTakenOnceInOrder and
IdleTimeoutInCompleteChangesNothing: a timeout and a reset pending in Complete. -/
theorem witness_EveryInputIsTakenOnceInOrder :
    let s : State := { doneRead with inputs := List.replicate 1 .idleTimeout ++ .reset 2 :: [] }
    s.phase = .complete ∧ step s = .next (nextOr s) ∧
    State.reset.phase ≠ .complete ∧ ({ State.reset with inputs := [.reset 0] } : State).inputs ≠ [] :=
  ⟨by decide, step_nextOr (by decide), by decide, by decide⟩

theorem witness_IdleTimeoutInCompleteChangesNothing : doneRead.phase = .complete := by decide

theorem witness_EveryStepKeepsTheInvariant : Inv doneRead ∧ step doneRead = .next (nextOr doneRead) :=
  ⟨inv_doneRead, step_nextOr (by decide)⟩

theorem witness_NoErrorIsFatal : Inv doneRead := inv_doneRead

theorem witness_ConfigurationIsStatic : step doneRead = .next (nextOr doneRead) :=
  step_nextOr (by decide)

theorem witness_PinsFollowExactlyTheEmittedEvents : step doneRead = .next (nextOr doneRead) :=
  step_nextOr (by decide)

theorem witness_BlockReadsNeitherPinsNorTrace : step doneRead = .next (nextOr doneRead) :=
  step_nextOr (by decide)

end Sys2Proof.Tests
end

section
/-!
The step relation of the block (10_state.md R50). The idea: put a GPIO copy and a trace that came before
under a state (`State.withPast`); every operation of the machine commutes with that, since none reads
either field. The closed machine of a block starts with an empty trace, so the machine's step is the
block's step with the machine's own past put under it.
-/

namespace Sys2Proof.Machine

/-- The state `u` with a past put under it: its events come after those of `trace`, and the GPIO copy is
`pins` as its events changed it. The copy `u` itself holds is dropped. -/
def State.withPast (pins : Vector PinState 32) (trace : List Event) (u : State) : State :=
  { u with trace := trace ++ u.trace, pins := u.trace.foldl (fun ps e => pinsAfter e ps) pins }

/-! ### mapNext -/

/-- Two functions that commute still do so on the next state of an outcome. -/
theorem mapNext_comm {f g : State → State} (h : ∀ s, f (g s) = g (f s))
    (o : Host.Outcome State Fault Refusal) : mapNext f (mapNext g o) = mapNext g (mapNext f o) := by
  cases o with
  | next s => exact congrArg Host.Outcome.next (h s)
  | fault r => rfl
  | refused r => rfl

section Commutes

variable (pins : Vector PinState 32) (trace : List Event)

/-! ### What a past leaves unchanged -/

@[simp] theorem withPast_phase (u : State) : (u.withPast pins trace).phase = u.phase := rfl
@[simp] theorem withPast_buf (u : State) : (u.withPast pins trace).buf = u.buf := rfl
@[simp] theorem withPast_cfg (u : State) : (u.withPast pins trace).cfg = u.cfg := rfl
@[simp] theorem resetDue_withPast (u : State) : resetDue (u.withPast pins trace) = resetDue u := rfl
@[simp] theorem nextLevel_withPast (u : State) : nextLevel (u.withPast pins trace) = nextLevel u := rfl
@[simp] theorem nextReply_withPast (n : Nat) (u : State) :
    nextReply n (u.withPast pins trace) = nextReply n u := rfl

/-! ### The shared operations commute with a past -/

theorem record_withPast (e : Event) (u : State) :
    record e (u.withPast pins trace) = (record e u).withPast pins trace := by
  simp [record, State.withPast]

theorem emit_withPast (e : Event) (u : State) :
    emit e (u.withPast pins trace) = (emit e u).withPast pins trace := by
  unfold emit
  rw [resetDue_withPast, record_withPast]
  split <;> rfl

theorem callRead_withPast (p : Pin) (u : State) :
    callRead p (u.withPast pins trace) = (callRead p u).withPast pins trace := by
  unfold callRead
  rw [resetDue_withPast, nextLevel_withPast, emit_withPast]
  split <;> rfl

theorem callTx_withPast (bytes : List Byte) (u : State) :
    callTx bytes (u.withPast pins trace) = (callTx bytes u).withPast pins trace := by
  unfold callTx
  rw [resetDue_withPast, nextReply_withPast, emit_withPast]
  split <;> rfl

theorem transmit_withPast (bytes : List Byte) (u : State) :
    transmit bytes (u.withPast pins trace) = (transmit bytes u).withPast pins trace := by
  unfold transmit onWriteFail
  rw [nextReply_withPast, callTx_withPast]
  split
  · rfl
  · exact emit_withPast ..

theorem transmitMsg_withPast (m : Message) (u : State) :
    transmitMsg m (u.withPast pins trace) = mapNext (State.withPast pins trace) (transmitMsg m u) := by
  unfold transmitMsg
  split
  · exact congrArg Host.Outcome.next (transmit_withPast ..)
  · rfl

theorem send_withPast (u : State) :
    send (u.withPast pins trace) = mapNext (State.withPast pins trace) (send u) := by
  have hr : readResp (u.withPast pins trace) = readResp u := rfl
  unfold send
  rw [hr]
  split
  · exact transmitMsg_withPast ..
  · rfl

theorem respond_withPast (v : Version) (p : Pin) (io : Io) (rw : Rw) (payload : List Byte) (u : State) :
    respond v p io rw payload (u.withPast pins trace) =
      mapNext (State.withPast pins trace) (respond v p io rw payload u) :=
  send_withPast pins trace (writeResp (respFor v p io rw payload) u)

theorem configureForWrite_withPast (p : Pin) (io : Io) (u : State) :
    configureForWrite p io (u.withPast pins trace) =
      (configureForWrite p io u).withPast pins trace := by
  unfold configureForWrite
  rw [withPast_cfg, emit_withPast]
  split <;> rfl

theorem abandon_withPast (u : State) :
    abandon (u.withPast pins trace) = (abandon u).withPast pins trace :=
  congrArg toScanning (record_withPast pins trace .signalError u)

/-! ### The processing of a candidate commutes with a past -/

theorem exec_withPast (i : Instr) (u : State) :
    exec i (u.withPast pins trace) = mapNext (State.withPast pins trace) (exec i u) := by
  cases i with
  | read v p io data =>
    simp only [exec_read, execRead, emit_withPast, callRead_withPast, nextLevel_withPast,
      respond_withPast]
  | writeOn v p io rest =>
    simp only [exec_writeOn, execWriteOn, configureForWrite_withPast, emit_withPast, withPast_cfg,
      respond_withPast]
  | writeOff v p io rest =>
    simp only [exec_writeOff, execWriteOff, configureForWrite_withPast, emit_withPast, withPast_cfg,
      respond_withPast]
  | writeInvalid v p io d0 rest =>
    simp only [exec_writeInvalid, execWriteInvalid, emit_withPast, respond_withPast]
  | writeNodata v p io => exact respond_withPast ..

theorem onDecodeError_withPast (k : DecodeError) (u : State) :
    onDecodeError k (u.withPast pins trace) =
      mapNext (State.withPast pins trace) (onDecodeError k u) := by
  unfold onDecodeError
  rw [withPast_cfg, emit_withPast]
  split
  · rfl
  · exact transmitMsg_withPast ..

theorem onComplete_withPast {u : State} (hu : u.phase = .complete) :
    onComplete (u.withPast pins trace) = mapNext (State.withPast pins trace) (onComplete u) := by
  have comm : ∀ o, mapNext toScanning (mapNext (State.withPast pins trace) o) =
      mapNext (State.withPast pins trace) (mapNext toScanning o) := mapNext_comm fun _ => rfl
  cases hd : decode u.cfg.decodeExcess u.buf with
  | ok m =>
    rw [onComplete_ok hu hd, ← comm, ← exec_withPast]
    exact onComplete_ok (s := u.withPast pins trace) hu hd
  | err k =>
    rw [onComplete_err hu hd, ← comm, ← onDecodeError_withPast]
    exact onComplete_err (s := u.withPast pins trace) hu hd

/-! ### The scanner commutes with a past -/

theorem onByteScanning_withPast (b : Byte) (u : State) :
    onByteScanning b (u.withPast pins trace) = (onByteScanning b u).withPast pins trace := by
  unfold onByteScanning
  split <;> rfl

theorem endTestLengthAware_withPast (u : State) :
    endTestLengthAware (u.withPast pins trace) = (endTestLengthAware u).withPast pins trace := by
  unfold endTestLengthAware
  rw [withPast_buf]
  split <;> rfl

theorem endTestSentinel_withPast (b : Byte) (u : State) :
    endTestSentinel b (u.withPast pins trace) = (endTestSentinel b u).withPast pins trace := by
  unfold endTestSentinel
  rw [withPast_cfg, withPast_buf, abandon_withPast]
  split
  · rfl
  · split
    · rfl
    · split <;> rfl

theorem onByte_withPast (b : Byte) (u : State) :
    onByte b (u.withPast pins trace) = (onByte b u).withPast pins trace := by
  unfold onByte
  rw [withPast_phase, withPast_cfg]
  split
  · exact onByteScanning_withPast ..
  · split
    · exact endTestLengthAware_withPast pins trace (appendByte b u)
    · exact endTestSentinel_withPast pins trace b (appendByte b u)
  · rfl

theorem onIdleTimeout_withPast (u : State) :
    onIdleTimeout (u.withPast pins trace) = (onIdleTimeout u).withPast pins trace := by
  unfold onIdleTimeout
  rw [withPast_cfg, withPast_phase, abandon_withPast]
  split <;> rfl

theorem react_withPast (i : Input) (u : State) :
    react i (u.withPast pins trace) = (react i u).withPast pins trace := by
  cases i with
  | rxByte b => exact onByte_withPast ..
  | idleTimeout => exact onIdleTimeout_withPast ..
  | reset k => rfl

theorem takeInput_withPast (u : State) :
    takeInput (u.withPast pins trace) = (takeInput u).withPast pins trace := by
  cases hi : u.inputs with
  | nil => rw [takeInput_nil hi, takeInput_nil (s := u.withPast pins trace) hi]
  | cons i rest =>
    rw [takeInput_cons hi, ← react_withPast, ← record_withPast]
    exact takeInput_cons (s := u.withPast pins trace) hi

/-- A step neither reads the past nor changes it. -/
theorem step_withPast (u : State) :
    step (u.withPast pins trace) = mapNext (State.withPast pins trace) (step u) := by
  by_cases hu : u.phase = .complete
  · rw [step_of_complete hu, ← onComplete_withPast pins trace hu]
    exact step_of_complete (s := u.withPast pins trace) hu
  · rw [step_of_not_complete hu, mapNext_next, ← takeInput_withPast]
    exact step_of_not_complete (s := u.withPast pins trace) hu

end Commutes

/-! ### No step writes the configuration (70_reset_and_hazards.md R274) -/

/-- Every command that answers a next state emits a list of events, as far as a pending reset allows,
and changes nothing `Emits` fixes. -/
theorem exec_emits {i : Instr} {s t : State} (h : exec i s = .next t) : ∃ es, Emits s t es := by
  cases i with
  | read v p io data =>
    obtain ⟨_, _, _, he⟩ := execRead_emits (data := data) h
    exact ⟨_, he⟩
  | writeOn v p io rest =>
    obtain ⟨_, _, he⟩ := execWriteOn_emits (rest := rest) h
    exact ⟨_, he⟩
  | writeOff v p io rest =>
    obtain ⟨_, _, he⟩ := execWriteOff_emits (rest := rest) h
    exact ⟨_, he⟩
  | writeInvalid v p io d0 rest =>
    obtain ⟨_, _, he⟩ := execWriteInvalid_emits (d0 := d0) (rest := rest) h
    exact ⟨_, he⟩
  | writeNodata v p io =>
    obtain ⟨_, _, he⟩ := execWriteNodata_emits h
    exact ⟨_, he⟩

theorem exec_cfg {i : Instr} {s t : State} (h : exec i s = .next t) : t.cfg = s.cfg :=
  (exec_emits h).elim fun _ he => he.cfg

theorem onDecodeError_cfg {k : DecodeError} {s t : State} (h : onDecodeError k s = .next t) :
    t.cfg = s.cfg := by
  obtain ⟨-, he⟩ | ⟨_, _, _, -, -, -, he⟩ := onDecodeError_emits h
  · exact he.cfg
  · exact he.cfg

theorem onComplete_cfg {s t : State} (hs : s.phase = .complete) (h : onComplete s = .next t) :
    t.cfg = s.cfg := by
  cases hd : decode s.cfg.decodeExcess s.buf with
  | ok m =>
    rw [onComplete_ok hs hd] at h
    obtain ⟨u, hu, rfl⟩ := mapNext_eq_next h
    exact (toScanning_cfg u).trans ((exec_cfg hu).trans (writeOutcome_cfg ..))
  | err k =>
    rw [onComplete_err hs hd] at h
    obtain ⟨u, hu, rfl⟩ := mapNext_eq_next h
    exact (toScanning_cfg u).trans ((onDecodeError_cfg hu).trans (writeOutcome_cfg ..))

theorem takeInput_cfg (s : State) : (takeInput s).cfg = s.cfg := by
  cases hi : s.inputs with
  | nil => rw [takeInput_nil hi]
  | cons i rest => rw [takeInput_cons hi]; exact react_cfg ..

theorem step_cfg {s t : State} (h : step s = .next t) : t.cfg = s.cfg := by
  by_cases hs : s.phase = .complete
  · exact onComplete_cfg hs (step_of_complete hs ▸ h)
  · rw [step_of_not_complete hs] at h
    cases h
    exact takeInput_cfg s

/-! ### The machine's step and the block's -/

/-- A machine is the closed machine of its block with the machine's past under it. -/
theorem withPast_closedMachine (s : State) :
    (closedMachine s.cfg s.toDraws s.inputs s.toBlock).withPast s.pins s.trace = s := by
  simp [State.withPast, closedMachine]

/-- A state with the past of a machine of the same configuration is that machine after the block's
step that leaves the state's parts. -/
theorem withPast_eq_after {s t : State} (h : t.cfg = s.cfg) :
    t.withPast s.pins s.trace = s.after ⟨t.toBlock, t.toDraws, t.inputs, t.trace⟩ := by
  simp [State.withPast, State.after, h]

/-- Settles O52: the machine is its block's closed machine with a past, a step commutes with the past
(`step_withPast`), and the configuration stays (`step_cfg`). -/
theorem stepIsTheBlockStepOnItsArguments : Obligations.StepIsTheBlockStepOnItsArguments := by
  intro s
  have hstep := step_withPast s.pins s.trace (closedMachine s.cfg s.toDraws s.inputs s.toBlock)
  rw [withPast_closedMachine] at hstep
  unfold blockStep
  cases hc : step (closedMachine s.cfg s.toDraws s.inputs s.toBlock) with
  | next t =>
    have hcfg : t.cfg = s.cfg := (step_cfg hc).trans (closedMachine_cfg ..)
    rw [hstep, hc, mapNext_next, withPast_eq_after hcfg]
  | fault r => rw [hstep, hc]; rfl
  | refused r => rw [hstep, hc]; rfl

end Sys2Proof.Machine
end

section
/-!
Which events a step adds and what it does to the inputs (20_memory.md R61). Every event an operation of
the block emits is an output, so the only received byte in a step's new events is the one the step took;
and in Complete the inputs change at most in a pending reset's count.
-/

namespace Sys2Proof.Machine

/-! ### Lists of output events -/

@[simp] theorem failSignal_all_isOutput (r : TxReply) : (failSignal r).all Event.isOutput = true := by
  cases r <;> rfl

/-- What a pending reset lets happen of a list of outputs is a list of outputs. -/
theorem cut_all_isOutput {es : List Event} (h : es.all Event.isOutput = true) (b : Option Nat) :
    (cut b es).all Event.isOutput = true := by
  cases b with
  | none => exact h
  | some k =>
    rw [List.all_eq_true] at h ⊢
    exact fun e he => h e (List.mem_of_mem_take he)

/-- A received byte is no output. -/
theorem rxByte_notMem_of_all_isOutput {es : List Event} (h : es.all Event.isOutput = true) (b : Byte) :
    .rxByte b ∉ es :=
  fun hb => Bool.false_ne_true (List.all_eq_true.1 h _ hb)

/-! ### The processing of a candidate emits outputs only -/

theorem exec_emits_outputs {i : Instr} {s t : State} (h : exec i s = .next t) :
    ∃ es, Emits s t es ∧ es.all Event.isOutput = true := by
  cases i with
  | read v p io data =>
    obtain ⟨_, _, _, he⟩ := execRead_emits (data := data) h
    exact ⟨_, he, by simp [Event.isOutput]⟩
  | writeOn v p io rest =>
    obtain ⟨_, _, he⟩ := execWriteOn_emits (rest := rest) h
    exact ⟨_, he, by cases s.cfg.writeConfigure <;> simp [Event.isOutput]⟩
  | writeOff v p io rest =>
    obtain ⟨_, _, he⟩ := execWriteOff_emits (rest := rest) h
    exact ⟨_, he, by cases s.cfg.writeConfigure <;> simp [Event.isOutput]⟩
  | writeInvalid v p io d0 rest =>
    obtain ⟨_, _, he⟩ := execWriteInvalid_emits (d0 := d0) (rest := rest) h
    exact ⟨_, he, by simp [Event.isOutput]⟩
  | writeNodata v p io =>
    obtain ⟨_, _, he⟩ := execWriteNodata_emits h
    exact ⟨_, he, by simp [Event.isOutput]⟩

theorem onDecodeError_emits_outputs {k : DecodeError} {s t : State}
    (h : onDecodeError k s = .next t) : ∃ es, Emits s t es ∧ es.all Event.isOutput = true := by
  obtain ⟨-, he⟩ | ⟨_, _, _, -, -, -, he⟩ := onDecodeError_emits h
  · exact ⟨_, he, by simp [Event.isOutput]⟩
  · exact ⟨_, he, by simp [Event.isOutput]⟩

/-- A step in Complete writes the decode result, emits a list of outputs as far as a pending reset
allows, and returns to Scanning (41_framing.md R176). -/
theorem step_complete_emits_outputs {s t : State} (hs : s.phase = .complete) (h : step s = .next t) :
    ∃ u es, t = toScanning u ∧ Emits (writeOutcome (decode s.cfg.decodeExcess s.buf) s) u es ∧
      es.all Event.isOutput = true := by
  rw [step_of_complete hs] at h
  cases hd : decode s.cfg.decodeExcess s.buf with
  | ok m =>
    rw [onComplete_ok hs hd] at h
    obtain ⟨u, hu, rfl⟩ := mapNext_eq_next h
    obtain ⟨es, he, ho⟩ := exec_emits_outputs hu
    exact ⟨u, es, rfl, he, ho⟩
  | err k =>
    rw [onComplete_err hs hd] at h
    obtain ⟨u, hu, rfl⟩ := mapNext_eq_next h
    obtain ⟨es, he, ho⟩ := onDecodeError_emits_outputs hu
    exact ⟨u, es, rfl, he, ho⟩

/-! ### The bytes still to come -/

/-- Lowering a pending reset's count leaves the bytes to come as they are. -/
@[simp] theorem filter_isRx_countDown (n : Nat) (inputs : List Input) :
    (countDown n inputs).filter Input.isRx = inputs.filter Input.isRx := by
  induction inputs with
  | nil => rfl
  | cons i rest ih =>
    cases i with
    | rxByte b => rfl
    | idleTimeout => exact ih
    | reset k => rfl

/-! ### The scanner's reaction to a byte -/

theorem onByte_inputs (b : Byte) (s : State) : (onByte b s).inputs = s.inputs := by
  obtain h | ⟨-, -, h⟩ | ⟨-, h | h | h⟩ := onByte_cases b s <;> rw [h] <;> rfl

/-- The reaction to a byte is silent, or the signal of an overflow (41_framing.md R170). -/
theorem onByte_trace (b : Byte) (s : State) :
    (onByte b s).trace = s.trace ∨ (onByte b s).trace = s.trace ++ [.signalError] := by
  obtain h | ⟨-, -, h⟩ | ⟨-, h | h | h⟩ := onByte_cases b s <;> rw [h]
  · exact .inl rfl
  · exact .inl rfl
  · exact .inl rfl
  · exact .inl rfl
  · exact .inr rfl

/-- Outside Complete a step with a byte next records it and reacts to it. -/
theorem step_rxByte {s : State} {b : Byte} {rest : List Input} (hs : s.phase ≠ .complete)
    (hi : s.inputs = .rxByte b :: rest) :
    step s = .next (onByte b (record (.rxByte b) { s with inputs := rest })) := by
  rw [step_of_not_complete hs, takeInput_cons hi]
  rfl

/-- The reaction takes no further input, and whatever happens after the byte is an output. -/
theorem step_rxByte_emits_outputs {s : State} {b : Byte} {rest : List Input}
    (hs : s.phase ≠ .complete) (hi : s.inputs = .rxByte b :: rest) :
    ∃ t es, step s = .next t ∧ t.inputs = rest ∧ t.trace = s.trace ++ .rxByte b :: es ∧
      es.all Event.isOutput = true := by
  obtain ht | ht := onByte_trace b (record (.rxByte b) { s with inputs := rest })
  · exact ⟨_, [], step_rxByte hs hi, onByte_inputs .., ht, rfl⟩
  · exact ⟨_, [.signalError], step_rxByte hs hi, onByte_inputs .., by simp [ht], rfl⟩

/-- Settles O30: outside Complete a step waits (`takeInput_nil`) or takes the byte next
(`step_rxByte_emits_outputs`); in Complete it emits outputs only and changes at most a pending
reset's count (`step_complete_emits_outputs`). -/
theorem oneByteAtATimeAndNoneWhileComplete : Obligations.OneByteAtATimeAndNoneWhileComplete := by
  refine ⟨fun s hs hi => ?_, fun s b rest hs hi => ?_, fun s t hs h => ?_⟩
  · rw [step_of_not_complete hs, takeInput_nil hi]
  · obtain ⟨t, es, hstep, hin, htr, ho⟩ := step_rxByte_emits_outputs hs hi
    exact ⟨t, es, hstep, hin, htr, rxByte_notMem_of_all_isOutput ho⟩
  · obtain ⟨u, es, rfl, he, ho⟩ := step_complete_emits_outputs hs h
    refine ⟨?_, _, he.trace, rxByte_notMem_of_all_isOutput (cut_all_isOutput ho _)⟩
    rw [toScanning_inputs, he.inputs, filter_isRx_countDown, writeOutcome_inputs]

end Sys2Proof.Machine
end

section
/-!
The layout of a frame (30_encoding.md R90 to R93). A masked byte has the mask's bits and its value
modulo a power of two (`getLsbD_and_lowMask`, `toNat_and_lowMask`); from these come the bits and the
arithmetic value of the two header bytes. What stands at each offset of `frameBytes` is said once, for
every Message.
-/

namespace Sys2Proof

/-! ### Bytes under a mask of low bits -/

/-- A mask of the low `k` bits keeps those and clears the others. -/
theorem getLsbD_and_lowMask (k : Nat) (hk : k ≤ 8) (b : Byte) (i : Nat) :
    (b &&& BitVec.ofNat 8 (2 ^ k - 1)).getLsbD i = (decide (i < k) && b.getLsbD i) := by
  rw [BitVec.getLsbD_and, BitVec.getLsbD_ofNat, Nat.testBit_two_pow_sub_one, Bool.and_comm]
  by_cases h : i < k
  · have h8 : i < 8 := by omega
    simp [h, h8]
  · simp [h]

/-- A byte under a mask of the low `k` bits is the byte modulo `2 ^ k`. -/
theorem toNat_and_lowMask (k : Nat) (hk : k ≤ 8) (b : Byte) :
    (b &&& BitVec.ofNat 8 (2 ^ k - 1)).toNat = b.toNat % 2 ^ k := by
  have hpow : 2 ^ k ≤ 2 ^ 8 := Nat.pow_le_pow_right (by decide) hk
  rw [BitVec.toNat_and, BitVec.toNat_ofNat, Nat.mod_eq_of_lt (by omega),
    Nat.and_two_pow_sub_one_eq_mod]

/-- Bit `k` of a byte, shifted down and masked, is 1 exactly when the bit is set. -/
theorem shift_and_one_eq_one_iff (b : Byte) (k : Nat) :
    (b >>> k) &&& 1#8 = 1#8 ↔ b.getLsbD k = true := by
  have hmod : ((b >>> k) &&& 1#8).toNat = b.toNat >>> k % 2 := toNat_and_lowMask 1 (by decide) (b >>> k)
  have hone : (1#8).toNat = 1 := rfl
  rw [← BitVec.toNat_inj, hmod, BitVec.getLsbD, Nat.testBit_eq_decide_div_mod_eq, decide_eq_true_iff,
    Nat.shiftRight_eq_div_pow, hone]

/-! ### The bits of the header bytes (30_encoding.md R91, R92) -/

@[simp] theorem getLsbD_h1Pin (b : Byte) (i : Nat) :
    (h1Pin b).getLsbD i = (decide (i < 5) && b.getLsbD i) :=
  getLsbD_and_lowMask 5 (by decide) b i

@[simp] theorem getLsbD_h1Version (b : Byte) (i : Nat) :
    (h1Version b).getLsbD i = (decide (i < 3) && b.getLsbD (i + 5)) := by
  rw [Nat.add_comm i 5, ← BitVec.getLsbD_ushiftRight]
  exact getLsbD_and_lowMask 3 (by decide) (b >>> 5) i

@[simp] theorem getLsbD_h2Length (b : Byte) (i : Nat) :
    (h2Length b).getLsbD i = (decide (i < 6) && b.getLsbD i) :=
  getLsbD_and_lowMask 6 (by decide) b i

theorem h2Io_eq (b : Byte) : h2Io b = if b.getLsbD 7 then .output else .input := by
  simp only [h2Io, shift_and_one_eq_one_iff]

theorem h2Rw_eq (b : Byte) : h2Rw b = if b.getLsbD 6 then .write else .read := by
  simp only [h2Rw, shift_and_one_eq_one_iff]

/-- `packH1` puts the pin's low bits below the version's. -/
theorem packH1_eq_or (v p : Byte) : packH1 v p = (v <<< 5) ||| h1Pin p := rfl

/-- `packH2` puts the length's low bits below the two code bits. -/
theorem packH2_eq_or (io : Io) (rw : Rw) (l : Byte) :
    packH2 io rw l = (BitVec.ofNat 8 io.code <<< 7) ||| (BitVec.ofNat 8 rw.code <<< 6) ||| h2Length l :=
  rfl

theorem getLsbD_packH1 (v p : Byte) {i : Nat} (hi : i < 8) :
    (packH1 v p).getLsbD i = if i < 5 then p.getLsbD i else v.getLsbD (i - 5) := by
  rw [packH1_eq_or, BitVec.getLsbD_or, BitVec.getLsbD_shiftLeft, getLsbD_h1Pin]
  by_cases h : i < 5 <;> simp [h, hi]

/-- The two code bits of header byte 2: bit 6 is `rw`, bit 7 is `io`. -/
theorem getLsbD_codeBits (io : Io) (rw : Rw) {i : Nat} (hi : i < 8) :
    ((BitVec.ofNat 8 io.code <<< 7) ||| (BitVec.ofNat 8 rw.code <<< 6)).getLsbD i =
      if i < 6 then false else if i = 6 then decide (rw = .write) else decide (io = .output) := by
  cases io <;> cases rw <;> revert i <;> decide

theorem getLsbD_packH2 (io : Io) (rw : Rw) (l : Byte) {i : Nat} (hi : i < 8) :
    (packH2 io rw l).getLsbD i =
      if i < 6 then l.getLsbD i else if i = 6 then decide (rw = .write) else decide (io = .output) := by
  rw [packH2_eq_or, BitVec.getLsbD_or, getLsbD_codeBits io rw hi, getLsbD_h2Length]
  by_cases h : i < 6 <;> simp [h]

/-- Settles O2: each bit of the packed bytes (`getLsbD_packH1`, `getLsbD_packH2`) and of the fields
read back. -/
theorem headerFieldsStandAtTheirBits : Obligations.HeaderFieldsStandAtTheirBits :=
  ⟨fun v p _ hi => getLsbD_packH1 v p hi, fun io rw l _ hi => getLsbD_packH2 io rw l hi,
    fun b i => ⟨getLsbD_h1Version b i, getLsbD_h1Pin b i, getLsbD_h2Length b i⟩,
    fun b => ⟨h2Io_eq b, h2Rw_eq b⟩⟩

/-! ### The header bytes and the checksum in arithmetic -/

/-- A byte shifted by `k` shares no bit with one that fits in `k` bits: or-ing them is adding them. -/
theorem shiftLeft_or_eq_ofNat (x : Byte) {y : Byte} {k : Nat} (hy : y.toNat < 2 ^ k) :
    (x <<< k) ||| y = BitVec.ofNat 8 (x.toNat * 2 ^ k + y.toNat) := by
  have hx : BitVec.ofNat 8 (x.toNat <<< k) = x <<< k := rfl
  rw [← Nat.shiftLeft_eq, Nat.shiftLeft_add_eq_or_of_lt hy, BitVec.ofNat_or, hx, BitVec.ofNat_toNat,
    BitVec.setWidth_eq]

theorem toNat_h1Pin (b : Byte) : (h1Pin b).toNat = b.toNat % 32 := toNat_and_lowMask 5 (by decide) b

theorem toNat_h2Length (b : Byte) : (h2Length b).toNat = b.toNat % 64 :=
  toNat_and_lowMask 6 (by decide) b

/-- Header byte 1 of any two bytes: high bits of the version are lost modulo 256. -/
theorem packH1_eq_ofNat (v p : Byte) :
    packH1 v p = BitVec.ofNat 8 (v.toNat * 32 + p.toNat % 32) := by
  have hadd : packH1 v p = BitVec.ofNat 8 (v.toNat * 32 + (h1Pin p).toNat) :=
    shiftLeft_or_eq_ofNat v (k := 5) (h1_range p).2
  rw [hadd, toNat_h1Pin]

/-- The two code bits of header byte 2 are one number shifted above the length. -/
theorem codeBits_eq_shiftLeft (io : Io) (rw : Rw) :
    (BitVec.ofNat 8 io.code <<< 7) ||| (BitVec.ofNat 8 rw.code <<< 6) =
      BitVec.ofNat 8 (io.code * 2 + rw.code) <<< 6 := by
  cases io <;> cases rw <;> rfl

theorem Io.code_lt_two (io : Io) : io.code < 2 := by cases io <;> decide

theorem Rw.code_lt_two (rw : Rw) : rw.code < 2 := by cases rw <;> decide

theorem packH2_eq_ofNat (io : Io) (rw : Rw) (l : Byte) :
    packH2 io rw l = BitVec.ofNat 8 (io.code * 128 + rw.code * 64 + l.toNat % 64) := by
  have hio := io.code_lt_two
  have hrw := rw.code_lt_two
  rw [packH2_eq_or, codeBits_eq_shiftLeft, shiftLeft_or_eq_ofNat _ (h2Length_range l), toNat_h2Length,
    BitVec.toNat_ofNat, Nat.mod_eq_of_lt (by omega)]
  congr 1
  omega

theorem Message.sum_eq_ofNat (m : Message) :
    m.sum = BitVec.ofNat 8 (m.version.toNat + m.pin.toNat + m.io.code + m.rw.code + m.length.toNat +
      (m.data.map BitVec.toNat).sum) := by
  simp [Message.sum, Sys2Proof.checksum, sum8, Nat.add_assoc]

/-- A sum reduced modulo 256 is the same byte. -/
theorem ofNat_mod_256 (n : Nat) : BitVec.ofNat 8 (n % 256) = BitVec.ofNat 8 n :=
  BitVec.eq_of_toNat_eq (by simp)

/-! ### What stands at each offset of a frame -/

theorem frameBytes_getElem?_data (m : Message) {k : Nat} (hk : k < m.data.length) :
    (frameBytes m)[3 + k]? = m.data[k]? := by
  rw [frameBytes_eq, Nat.add_comm]
  simp [List.getElem?_append_left hk]

theorem frameBytes_getElem?_checksum (m : Message) :
    (frameBytes m)[3 + m.data.length]? = some m.sum := by
  rw [frameBytes_eq, Nat.add_comm]
  simp

theorem frameBytes_getElem?_etx (m : Message) :
    (frameBytes m)[4 + m.data.length]? = some etx := by
  rw [frameBytes_eq, show 4 + m.data.length = m.data.length + 1 + 3 by omega]
  simp

/-- Settles O1: the frame is `frameBytes` (`encodeMsg_of_wf`); for a well-formed Message no header
field is cut by its mask. -/
theorem encodeLaysOutTheFrame : Obligations.EncodeLaysOutTheFrame := by
  intro m hwf
  obtain ⟨hpin, -, hlen, hdata, -⟩ := m.wf_iff.1 hwf
  refine ⟨frameBytes m, encodeMsg_of_wf hwf, ?_, rfl, ?_, ?_, fun k hk => ?_, ?_, ?_⟩
  · rw [frameBytes_length, hdata, Nat.add_comm]
  · rw [← Nat.mod_eq_of_lt hpin, ← packH1_eq_ofNat]; rfl
  · rw [← Nat.mod_eq_of_lt hlen, ← packH2_eq_ofNat]; rfl
  · exact frameBytes_getElem?_data m (hdata ▸ hk)
  · rw [← hdata, frameBytes_getElem?_checksum, ofNat_mod_256, hdata, m.sum_eq_ofNat]
  · rw [← hdata, frameBytes_getElem?_etx]; rfl

end Sys2Proof
end

section
/-!
Decode of a frame (40_codec.md R141). `decodeBody_packed` is the converse of `decodeBody_ok`: packed
header bytes, the data and its checksum are read back as the Message, whatever follows them, where the
excess rule admits it. A frame is the case with no excess bytes.
-/

namespace Sys2Proof

/-- `decodeBody` reads a well-formed Message back from its packed header and its body; the bytes in
`rest` are not looked at, only their number is (40_codec.md R137). -/
theorem decodeBody_packed {x : Excess} {n : Nat} {m : Message} (hwf : m.wf = true)
    (hn : 5 + m.length.toNat ≤ n) (hx : x = .reject → n = 5 + m.length.toNat) (rest : List Byte) :
    decodeBody x n (packH1 m.version m.pin) (packH2 m.io m.rw m.length) (m.data ++ m.sum :: rest) =
      .ok m := by
  obtain ⟨hpin, hver, hlen, hdata, hsum⟩ := m.wf_iff.1 hwf
  obtain ⟨hv, hp⟩ := h1_packH1 hver hpin
  obtain ⟨hio, hrw, hl⟩ := h2_packH2 m.io m.rw hlen
  have hbound : ¬ n < 3 + m.length.toNat + 2 := by omega
  have hexcess : ¬ (n ≠ 5 + m.length.toNat ∧ x = .reject) := fun ⟨hne, hr⟩ => hne (hx hr)
  have htake : (m.data ++ m.checksum :: rest).take m.length.toNat = m.data := by
    rw [← hdata, List.take_left]
  have hdrop : (m.data ++ m.checksum :: rest).drop m.length.toNat = m.checksum :: rest := by
    rw [← hdata, List.drop_left]
  have hcheck : checksum m.version m.pin m.io m.rw m.length m.data = m.checksum := hsum.symm
  simp [decodeBody, hv, hp, hio, hrw, hl, hbound, hexcess, htake, hdrop, hcheck, ← hsum]

/-- Excess bytes between the checksum and the end marker leave the decoded Message as it is, unless the
setting rejects them (40_codec.md R137). -/
theorem decode_frame_with_excess {x : Excess} {m : Message} (hwf : m.wf = true) (extra : List Byte)
    (hx : x = .reject → extra = []) :
    decode x (stx :: packH1 m.version m.pin :: packH2 m.io m.rw m.length ::
      (m.data ++ m.sum :: (extra ++ [etx]))) = .ok m := by
  obtain ⟨-, -, -, hdata, -⟩ := m.wf_iff.1 hwf
  have hsize : (m.data ++ m.sum :: (extra ++ [etx])).length + 3 =
      5 + m.length.toNat + extra.length := by
    simp [hdata]; omega
  rw [decode_of_markers _ _ _ _ (by simp) (by simp [List.getLast?_cons]), hsize]
  exact decodeBody_packed hwf (by omega) (fun hr => by simp [hx hr]) _

/-- Decode reads a well-formed Message back from its frame, under either excess setting. -/
theorem decode_frameBytes (x : Excess) {m : Message} (hwf : m.wf = true) :
    decode x (frameBytes m) = .ok m :=
  decode_frame_with_excess hwf [] fun _ => rfl

/-- Settles O8: the frame is `frameBytes` (`encodeMsg_of_wf`), which Decode reads back
(`decode_frameBytes`). -/
theorem decodeOfEncodeIsTheMessage : Obligations.DecodeOfEncodeIsTheMessage :=
  fun x m hwf => ⟨frameBytes m, encodeMsg_of_wf hwf, decode_frameBytes x hwf⟩

end Sys2Proof
end

section
/-!
Framing and processing of a candidate: the LENGTH_AWARE end test in the spec's arithmetic
(41_framing.md R167), and a step in Complete by the result of Decode (41_framing.md R176).
-/

namespace Sys2Proof

/-- An instruction is decoded exactly from a buffer that decodes to a Message of it. -/
theorem decodeInstr_eq_ok_iff (x : Excess) (buf : List Byte) (i : Instr) :
    decodeInstr x buf = .ok i ↔ ∃ m, decode x buf = .ok m ∧ i = Instr.ofMessage m := by
  unfold decodeInstr
  cases decode x buf with
  | ok m => simp [eq_comm]
  | err k => simp

namespace Machine

/-! ### The LENGTH_AWARE end test -/

/-- The end test writes the phase and nothing else. -/
theorem endTestLengthAware_eq (s : State) :
    endTestLengthAware s = { s with
      phase := if 3 ≤ s.buf.length ∧ s.buf.length = 5 + (s.buf.getD 2 0#8).toNat % 64 then .complete
        else s.phase } := by
  have hend := expectedLength_eq_length s.buf
  rw [toNat_h2Length] at hend
  split
  case isTrue h => exact endTestLengthAware_done (hend.2 h)
  case isFalse h => exact endTestLengthAware_wait (mt hend.1 h)

/-- Settles O26: the step records the byte and reacts (`step_rxByte`), which appends it and applies the
end test (`endTestLengthAware_eq`). -/
theorem lengthAwareFrameEndsByItsLength : Obligations.LengthAwareFrameEndsByItsLength := by
  intro s b rest hs hf hi
  have hbyte := onByte_lengthAware (s := record (.rxByte b) { s with inputs := rest }) hs hf b
  rw [step_rxByte (by simp [hs]) hi, hbyte, endTestLengthAware_eq, ← hs]
  rfl

/-! ### A step in Complete -/

theorem step_of_decode_ok {s : State} (hs : s.phase = .complete) {m : Message}
    (hd : decode s.cfg.decodeExcess s.buf = .ok m) :
    step s = mapNext toScanning (exec (Instr.ofMessage m) (writeOutcome (.ok m) s)) :=
  (step_of_complete hs).trans (onComplete_ok hs hd)

theorem step_of_decode_err {s : State} (hs : s.phase = .complete) {k : DecodeError}
    (hd : decode s.cfg.decodeExcess s.buf = .err k) :
    step s = mapNext toScanning (onDecodeError k (writeOutcome (.err k) s)) :=
  (step_of_complete hs).trans (onComplete_err hs hd)

/-- Settles O36: the candidate decodes to a Message of the instruction (`decodeInstr_eq_ok_iff`), which
the step dispatches (`step_of_decode_ok`). -/
theorem stepRunsTheDecodedInstruction : Obligations.StepRunsTheDecodedInstruction := by
  intro s i hs hi
  obtain ⟨m, hd, rfl⟩ := (decodeInstr_eq_ok_iff ..).1 hi
  exact ⟨m, hd, rfl, step_of_decode_ok hs hd⟩

/-- Settles O37: the two results of Decode are `step_of_decode_ok` and `step_of_decode_err`; a next
state comes out of `toScanning` (`step_complete_emits_outputs`). -/
theorem completeAlwaysReturnsToScanning : Obligations.CompleteAlwaysReturnsToScanning := by
  refine fun s hs => ⟨fun m => step_of_decode_ok hs, fun k => step_of_decode_err hs, fun t ht => ?_⟩
  obtain ⟨u, -, rfl, -, -⟩ := step_complete_emits_outputs hs ht
  exact ⟨rfl, rfl, rfl, rfl⟩

end Machine
end Sys2Proof
end

section
/-!
Completion of READ (42_dispatch.md R201). The response Message and its frame are given in plain
arithmetic (30_encoding.md R90 to R93), and a response with no reset pending is said once, for every
payload.
-/

namespace Sys2Proof.Machine

/-! ### The response and its frame in arithmetic -/

theorem respFor_eq (v : Version) (p : Pin) (io : Io) (rw : Rw) {payload : List Byte}
    (h : payload.length ≤ 63) :
    respFor v p io rw payload =
      { version := v.setWidth 8, pin := p.setWidth 8, io := io, rw := rw,
        length := BitVec.ofNat 8 payload.length, data := payload,
        checksum := BitVec.ofNat 8 (v.toNat + p.toNat + io.code + rw.code + payload.length +
          (payload.map BitVec.toNat).sum) } := by
  have hlen : payload.length % 2 ^ 8 = payload.length := Nat.mod_eq_of_lt (by omega)
  have hsum := Message.sum_eq_ofNat (respFor v p io rw payload)
  simp only [respFor, mkMessage, toNat_setWidth_version, toNat_setWidth_pin, BitVec.toNat_ofNat,
    hlen] at hsum
  rw [← hsum]
  rfl

theorem frameBytes_respFor (v : Version) (p : Pin) (io : Io) (rw : Rw) {payload : List Byte}
    (h : payload.length ≤ 63) :
    frameBytes (respFor v p io rw payload) =
      [0x02#8, BitVec.ofNat 8 (v.toNat * 32 + p.toNat),
        BitVec.ofNat 8 (io.code * 128 + rw.code * 64 + payload.length)] ++ payload ++
      [BitVec.ofNat 8 (v.toNat + p.toNat + io.code + rw.code + payload.length +
        (payload.map BitVec.toNat).sum), 0x03#8] := by
  have hlen : payload.length % 2 ^ 8 % 64 = payload.length := by omega
  have hsum : (respFor v p io rw payload).sum = _ := congrArg Message.checksum (respFor_eq v p io rw h)
  rw [frameBytes_eq, hsum, packH1_eq_ofNat, packH2_eq_ofNat]
  simp only [respFor, mkMessage, toNat_setWidth_version, toNat_setWidth_pin, BitVec.toNat_ofNat,
    hlen, Nat.mod_eq_of_lt p.isLt]
  rfl

/-! ### A response with no reset pending -/

/-- In Complete, with no reset pending, a response is written to `T.resp` and its frame goes out in one
`TxWrite`, with one `SignalError` after it if the write failed (42_dispatch.md R210, R211). -/
theorem respond_clear {s : State} (hs : s.phase = .complete) (hr : resetNext s = false) (v : Version)
    (p : Pin) (io : Io) (rw : Rw) {payload : List Byte} (h : payload.length ≤ 63) :
    respond v p io rw payload s = .next { s with
      resp := some (respFor v p io rw payload),
      txDraws := s.txDraws.tail, drawCount := s.drawCount + 1,
      trace := s.trace ++
        [.txWrite (frameBytes (respFor v p io rw payload)) (nextReply (5 + payload.length) s)] ++
        failSignal (nextReply (5 + payload.length) s) } := by
  have hlen : (frameBytes (respFor v p io rw payload)).length = 5 + payload.length :=
    (frameBytes_length _).trans (Nat.add_comm ..)
  rw [respond_complete hs v p io rw h, transmit_clear (by simpa using hr), hlen, List.append_assoc]
  rfl

/-! ### READ -/

/-- With no reset pending, configuring the pin and then reading it records the two events and takes one
level draw; the level read is the one drawn from the state before. -/
theorem callRead_configure_clear {s : State} (hr : resetNext s = false) (p : Pin) (io : Io) :
    callRead p (emit (.configure p io) s) = { s with
      levelDraws := s.levelDraws.tail, drawCount := s.drawCount + 1,
      pins := setPin s.pins p { pinAt s.pins p with dir := dirOf io },
      trace := s.trace ++ [.configure p io, .read p (nextLevel s)] } := by
  rw [emit_clear hr, callRead_clear (by simpa using hr)]
  ext1 <;> simp [pinsAfter, nextLevel]

/-- Settles O17: the pin is configured and sampled (`callRead_configure_clear`), then the digit is
answered (`respond_clear`) in a frame of the stated bytes (`frameBytes_respFor`). -/
theorem readConfiguresSamplesAndAnswers : Obligations.ReadConfiguresSamplesAndAnswers := by
  intro s v p io data hs hr level digit sum bytes reply
  have hlen : [digit].length ≤ 63 := by simp
  have hframe : frameBytes (respFor v p io .read [digit]) = bytes := frameBytes_respFor v p io .read hlen
  have hread := callRead_configure_clear hr p io
  have hreset : resetNext (callRead p (emit (.configure p io) s)) = false := by rw [hread]; exact hr
  calc exec (.read v p io data) s
    _ = respond v p io .read [digit] (callRead p (emit (.configure p io) s)) := by
      rw [exec_read, execRead, emit_clear hr]; rfl
    _ = _ := by
      rw [respond_clear (by simpa using hs) hreset v p io .read hlen, hframe,
        respFor_eq v p io .read hlen, hread, List.append_assoc s.trace]
      rfl

end Sys2Proof.Machine
end

section
/-!
A failed write (60_exceptions.md R252). A processing emits no `TxWrite`, or one as its last event but for
the signal of its failure (`AtMostOneFrame`). So a `TxWrite` found in its events tells what stands before
it and after it.
-/

namespace Sys2Proof.Machine

/-! ### What a transport write puts on the link -/

theorem wire_append (es fs : List Event) : wire (es ++ fs) = wire es ++ wire fs :=
  List.flatMap_append

theorem Event.delivered_of_not_isTx {e : Event} (h : e.isTx = false) : e.delivered = [] := by
  cases e with
  | txWrite bytes reply => cases h
  | _ => rfl

/-- Events without a `TxWrite` put nothing on the link (20_memory.md R63). -/
theorem wire_of_not_isTx {es : List Event} (h : ∀ e ∈ es, e.isTx = false) : wire es = [] :=
  List.flatMap_eq_nil_iff.2 fun e he => e.delivered_of_not_isTx (h e he)

theorem txWrite_notMem {es : List Event} (h : ∀ e ∈ es, e.isTx = false) (bytes : List Byte)
    (reply : TxReply) : .txWrite bytes reply ∉ es :=
  fun hmem => Bool.noConfusion (h _ hmem)

theorem failSignal_not_isTx (reply : TxReply) : ∀ e ∈ failSignal reply, e.isTx = false := by
  cases reply <;> simp [failSignal, Event.isTx]

/-- A write that fails has sent fewer bytes than the frame has (20_memory.md R64). -/
theorem nextReply_fail_lt {s : State} {len k : Nat} (hlen : 0 < len) (h : nextReply len s = .fail k) :
    k < len := by
  unfold nextReply at h
  cases hdraw : s.txDraws.head?.getD (Config.freeTxReply s.drawCount) with
  | ok => rw [hdraw] at h; cases h
  | fail j => rw [hdraw] at h; cases h; exact Nat.mod_lt j hlen

theorem encodeMsg_length_pos {m : Message} {bytes : List Byte} (h : encodeMsg m = some bytes) :
    0 < bytes.length := by
  unfold encodeMsg at h
  split at h
  · cases h; simp
  · cases h

/-! ### A processing sends at most one frame, last -/

/-- No `TxWrite`; or one, with only the signal of its failure behind it. -/
inductive AtMostOneFrame : List Event → Prop
  | silent {es : List Event} (hes : ∀ e ∈ es, e.isTx = false) : AtMostOneFrame es
  | frame {pre : List Event} {bytes : List Byte} {reply : TxReply}
      (hpre : ∀ e ∈ pre, e.isTx = false) (hk : ∀ k, reply = .fail k → k < bytes.length) :
      AtMostOneFrame (pre ++ .txWrite bytes reply :: failSignal reply)

/-- Two readings of one list around a `TxWrite` agree, if one of them has no `TxWrite` before or after
it: in the other reading the write can stand neither further left nor further right. -/
theorem parts_eq_around_txWrite {before after pre post : List Event} {bytes bytes' : List Byte}
    {reply reply' : TxReply} (hpre : ∀ e ∈ pre, e.isTx = false) (hpost : ∀ e ∈ post, e.isTx = false)
    (h : before ++ .txWrite bytes reply :: after = pre ++ .txWrite bytes' reply' :: post) :
    before = pre ∧ Event.txWrite bytes reply = .txWrite bytes' reply' ∧ after = post := by
  obtain ⟨gap, hgap, htail⟩ | ⟨gap, hgap, htail⟩ := List.append_eq_append_iff.1 h
  · cases gap with
    | nil =>
      obtain ⟨heq, hafter⟩ := List.cons.inj htail
      exact ⟨(hgap.trans (List.append_nil before)).symm, heq, hafter⟩
    | cons e gap =>
      obtain ⟨rfl, -⟩ := List.cons.inj htail
      have hmem : .txWrite bytes reply ∈ pre :=
        hgap ▸ List.mem_append_right before List.mem_cons_self
      exact absurd hmem (txWrite_notMem hpre bytes reply)
  · cases gap with
    | nil =>
      obtain ⟨heq, hafter⟩ := List.cons.inj htail
      exact ⟨hgap.trans (List.append_nil pre), heq.symm, hafter.symm⟩
    | cons e gap =>
      obtain ⟨-, htail⟩ := List.cons.inj htail
      have hmem : .txWrite bytes reply ∈ post :=
        htail ▸ List.mem_append_right gap List.mem_cons_self
      exact absurd hmem (txWrite_notMem hpost bytes reply)

/-- Where a `TxWrite` stands in such a list, the rest of the list is known. -/
theorem AtMostOneFrame.around_txWrite {before after : List Event} {bytes : List Byte} {reply : TxReply}
    (h : AtMostOneFrame (before ++ .txWrite bytes reply :: after)) :
    (∀ e ∈ before, e.isTx = false) ∧ after = failSignal reply ∧
      ∀ k, reply = .fail k → k < bytes.length := by
  generalize hes : before ++ .txWrite bytes reply :: after = es at h
  cases h with
  | silent hes' =>
    subst hes
    exact absurd (by simp) (txWrite_notMem hes' bytes reply)
  | @frame pre bytes' reply' hpre hk =>
    obtain ⟨rfl, heq, rfl⟩ := parts_eq_around_txWrite hpre (failSignal_not_isTx reply') hes
    cases heq
    exact ⟨hpre, rfl, hk⟩

/-- A response after events without a `TxWrite` adds the one frame. -/
theorem respond_atMostOneFrame {s u t : State} {pre : List Event} (hu : Emits s u pre)
    (hpre : ∀ e ∈ pre, e.isTx = false) {v : Version} {p : Pin} {io : Io} {rw : Rw}
    {payload : List Byte} (h : respond v p io rw payload u = .next t) :
    ∃ es, Emits s t es ∧ AtMostOneFrame es := by
  obtain ⟨bytes, reply, hb, rfl, ht⟩ := respond_emits h
  exact ⟨_, hu.trans ht, .frame hpre fun _ => nextReply_fail_lt (encodeMsg_length_pos hb)⟩

theorem configureForWrite_set_not_isTx (c : Bool) (p : Pin) (io : Io) {e : Event}
    (he : e.isTx = false) :
    ∀ f ∈ (if c then [.configure p io] else []) ++ [e], f.isTx = false := by
  have hc : (Event.configure p io).isTx = false := rfl
  cases c <;> simp [hc, he]

theorem exec_atMostOneFrame {i : Instr} {s t : State} (h : exec i s = .next t) :
    ∃ es, Emits s t es ∧ AtMostOneFrame es := by
  cases i with
  | read v p io data =>
    exact respond_atMostOneFrame ((emit_emits (.configure p io) s).trans (callRead_emits p _))
      (by simp [Event.isTx]) h
  | writeOn v p io rest =>
    exact respond_atMostOneFrame
      ((configureForWrite_emits p io s).trans (emit_emits (.setHigh p) _))
      (configureForWrite_set_not_isTx _ p io rfl) h
  | writeOff v p io rest =>
    exact respond_atMostOneFrame
      ((configureForWrite_emits p io s).trans (emit_emits (.setLow p) _))
      (configureForWrite_set_not_isTx _ p io rfl) h
  | writeInvalid v p io d0 rest =>
    exact respond_atMostOneFrame (emit_emits .signalError s) (by simp [Event.isTx]) h
  | writeNodata v p io =>
    exact respond_atMostOneFrame (pre := []) (.refl_of rfl rfl rfl rfl rfl rfl rfl) (by simp) h

theorem onDecodeError_atMostOneFrame {k : DecodeError} {s t : State}
    (h : onDecodeError k s = .next t) : ∃ es, Emits s t es ∧ AtMostOneFrame es := by
  obtain ⟨-, ht⟩ | ⟨d, bytes, reply, -, hb, rfl, ht⟩ := onDecodeError_emits h
  · exact ⟨_, ht, .silent (by simp [Event.isTx])⟩
  · exact ⟨_, ht, .frame (pre := [.signalError]) (by simp [Event.isTx])
      fun _ => nextReply_fail_lt (encodeMsg_length_pos hb)⟩

/-- A step in Complete, with no reset pending, emits at most one frame; the GPIO copy follows the events
and the machine is back in Scanning. -/
theorem step_complete_atMostOneFrame {s t : State} (hs : s.phase = .complete)
    (hr : resetNext s = false) (h : step s = .next t) :
    ∃ es, AtMostOneFrame es ∧ t.trace = s.trace ++ es ∧
      t.pins = es.foldl (fun ps e => pinsAfter e ps) s.pins ∧ t.phase = .scanning ∧ t.buf = [] := by
  have hprocess : ∃ r u, t = toScanning u ∧
      ∃ es, Emits (writeOutcome r s) u es ∧ AtMostOneFrame es := by
    cases hd : decode s.cfg.decodeExcess s.buf with
    | ok m =>
      rw [step_of_decode_ok hs hd] at h
      obtain ⟨u, hu, rfl⟩ := mapNext_eq_next h
      exact ⟨_, u, rfl, exec_atMostOneFrame hu⟩
    | err k =>
      rw [step_of_decode_err hs hd] at h
      obtain ⟨u, hu, rfl⟩ := mapNext_eq_next h
      exact ⟨_, u, rfl, onDecodeError_atMostOneFrame hu⟩
  obtain ⟨r, u, rfl, es, hu, hes⟩ := hprocess
  refine ⟨es, hes, hu.trace_clear hr, ?_, rfl, rfl⟩
  rw [toScanning_pins, hu.pins, writeOutcome_inputs, (resetNext_false_iff s).1 hr]
  rfl

/-- Settles O40: the failed `TxWrite` is the processing's only frame, with its signal behind it
(`AtMostOneFrame.around_txWrite`), so nothing else reaches the link and only the events before it move
a pin. -/
theorem failedWriteSignalsAndIsNotRetried : Obligations.FailedWriteSignalsAndIsNotRetried := by
  intro s t bytes k before after hs hr hstep htrace
  obtain ⟨es, hes, htr, hpins, hphase, hbuf⟩ := step_complete_atMostOneFrame hs hr hstep
  have hsplit : es = before ++ .txWrite bytes (.fail k) :: after :=
    List.append_cancel_left (as := s.trace) (by rw [← htr, htrace, List.append_assoc])
  subst hsplit
  obtain ⟨hbefore, rfl, hk⟩ := hes.around_txWrite
  refine ⟨by simp [failSignal], by simp [failSignal], hk k rfl, ?_, ?_, hphase, hbuf⟩
  · rw [htr, wire_append, wire_append, wire_of_not_isTx hbefore]
    simp [wire, failSignal, Event.delivered]
  · rw [hpins, List.foldl_append]
    rfl

end Sys2Proof.Machine
end

section
/-!
Instructions and their requests (30_encoding.md R98 to R101). The request of an instruction and the
instruction of a Message are inverse to each other, on well-formed instructions and Messages; with the
round trip of the codec, the decoder reads every well-formed instruction back from its frame.
-/

namespace Sys2Proof

/-! ### From an instruction to its request and back -/

/-- A WRITE_INVALID's first data byte is no other command's (30_encoding.md R100). -/
theorem Instr.wf_writeInvalid_iff {v : Version} {p : Pin} {io : Io} {d0 : Byte} {rest : List Byte} :
    Instr.wf (.writeInvalid v p io d0 rest) = true ↔
      d0 ≠ cmdOn ∧ d0 ≠ cmdOff ∧ rest.length ≤ 62 := by
  simp [Instr.wf, cmdOn, cmdOff, and_assoc]

theorem Instr.request_wf {i : Instr} (h : i.wf = true) : i.request.wf = true := by
  cases i with
  | read v p io data => exact mkMessage_wf v p io .read (of_decide_eq_true h)
  | writeOn v p io rest =>
    exact mkMessage_wf v p io .write (Nat.succ_le_succ (of_decide_eq_true h))
  | writeOff v p io rest =>
    exact mkMessage_wf v p io .write (Nat.succ_le_succ (of_decide_eq_true h))
  | writeInvalid v p io d0 rest =>
    obtain ⟨-, -, hlen⟩ := Instr.wf_writeInvalid_iff.1 h
    exact mkMessage_wf v p io .write (Nat.succ_le_succ hlen)
  | writeNodata v p io => exact mkMessage_wf v p io .write (by simp)

/-- A READ keeps its operands and data through its Message. -/
theorem ofMessage_mkMessage_read (v : Version) (p : Pin) (io : Io) (data : List Byte) :
    Instr.ofMessage (mkMessage v p io .read data) = .read v p io data := by
  simp [Instr.ofMessage, mkMessage]

/-- A Write's first data byte selects its command (30_encoding.md R98). -/
theorem ofMessage_mkMessage_write (v : Version) (p : Pin) (io : Io) (d0 : Byte) (rest : List Byte) :
    Instr.ofMessage (mkMessage v p io .write (d0 :: rest)) =
      if d0 = cmdOn then .writeOn v p io rest
      else if d0 = cmdOff then .writeOff v p io rest
      else .writeInvalid v p io d0 rest := by
  simp [Instr.ofMessage, mkMessage]

theorem ofMessage_mkMessage_nodata (v : Version) (p : Pin) (io : Io) :
    Instr.ofMessage (mkMessage v p io .write []) = .writeNodata v p io := by
  simp [Instr.ofMessage, mkMessage]

theorem Instr.ofMessage_request {i : Instr} (h : i.wf = true) : Instr.ofMessage i.request = i := by
  cases i with
  | read v p io data => exact ofMessage_mkMessage_read v p io data
  | writeOn v p io rest => exact ofMessage_mkMessage_write v p io cmdOn rest
  | writeOff v p io rest => exact ofMessage_mkMessage_write v p io cmdOff rest
  | writeInvalid v p io d0 rest =>
    obtain ⟨hon, hoff, -⟩ := Instr.wf_writeInvalid_iff.1 h
    rw [Instr.request, ofMessage_mkMessage_write, if_neg hon, if_neg hoff]
  | writeNodata v p io => exact ofMessage_mkMessage_nodata v p io

/-- Settles O9: an instruction's frame is that of a well-formed request (`Instr.request_wf`), which
Decode reads back (`decode_frameBytes`) and which becomes the instruction (`Instr.ofMessage_request`). -/
theorem decodeOfEncodeIsTheInstruction : Obligations.DecodeOfEncodeIsTheInstruction := by
  intro x i hi
  have hwf := Instr.request_wf hi
  exact ⟨encodeMsg_of_wf hwf, (decodeInstr_eq_ok_iff ..).2
    ⟨i.request, decode_frameBytes x hwf, (Instr.ofMessage_request hi).symm⟩⟩

/-! ### From a Message to its instruction and back -/

/-- A well-formed Message is built from its own fields. -/
theorem mkMessage_of_wf {m : Message} (h : m.wf = true) :
    mkMessage (m.version.setWidth 3) (m.pin.setWidth 5) m.io m.rw m.data = m := by
  obtain ⟨hpin, hver, -, hdata, hsum⟩ := m.wf_iff.1 h
  have hlen : BitVec.ofNat 8 m.data.length = m.length := by
    rw [hdata, BitVec.ofNat_toNat, BitVec.setWidth_eq]
  rw [mkMessage, byte_of_version hver, byte_of_pin hpin, hlen]
  exact congrArg (Message.mk m.version m.pin m.io m.rw m.length m.data) hsum.symm

theorem Message.data_length_le {m : Message} (h : m.wf = true) : m.data.length ≤ 63 := by
  obtain ⟨-, -, hlen, hdata, -⟩ := m.wf_iff.1 h
  omega

/-- What the instruction of a Message built from fields keeps: all of them. -/
theorem ofMessage_mkMessage_keeps (v : Version) (p : Pin) (io : Io) (rw : Rw) {data : List Byte}
    (h : data.length ≤ 63) :
    (Instr.ofMessage (mkMessage v p io rw data)).wf = true ∧
      (Instr.ofMessage (mkMessage v p io rw data)).request = mkMessage v p io rw data := by
  cases rw with
  | read =>
    rw [ofMessage_mkMessage_read]
    exact ⟨decide_eq_true h, rfl⟩
  | write =>
    cases data with
    | nil =>
      rw [ofMessage_mkMessage_nodata]
      exact ⟨rfl, rfl⟩
    | cons d0 rest =>
      have hrest : rest.length ≤ 62 := Nat.le_of_succ_le_succ h
      rw [ofMessage_mkMessage_write]
      split
      next hon => exact ⟨decide_eq_true hrest, by rw [Instr.request, hon]⟩
      next hon =>
        split
        next hoff => exact ⟨decide_eq_true hrest, by rw [Instr.request, hoff]⟩
        next hoff => exact ⟨Instr.wf_writeInvalid_iff.2 ⟨hon, hoff, hrest⟩, rfl⟩

/-- Settles O15: a well-formed Message is built from its fields (`mkMessage_of_wf`), all of which its
instruction keeps (`ofMessage_mkMessage_keeps`). -/
theorem instructionKeepsTheWholeRequest : Obligations.InstructionKeepsTheWholeRequest := by
  intro m h
  have hkeep := ofMessage_mkMessage_keeps (m.version.setWidth 3) (m.pin.setWidth 5) m.io m.rw
    (Message.data_length_le h)
  rwa [mkMessage_of_wf h] at hkeep

end Sys2Proof
end

section
/-!
The invariant (10_state.md R38, R39, R41). Every return to Scanning meets it, so the work is the byte
received in Accumulating: the buffer stays below the length its end test waits for, or reaches it.
-/

namespace Sys2Proof.Machine

/-! ### The length the LENGTH_AWARE end test waits for -/

theorem expectedLength_range {buf : List Byte} {n : Nat} (h : expectedLength buf = some n) :
    minFrame ≤ n ∧ n ≤ maxFrame := by
  unfold expectedLength at h
  split at h
  next h2 _ =>
    have hlen := h2Length_range h2
    cases h
    simp only [minFrame, maxFrame]
    omega
  next => cases h

/-- Once the third byte is there, later bytes do not change the length. -/
theorem expectedLength_append {buf : List Byte} {n : Nat} (h : expectedLength buf = some n)
    (more : List Byte) : expectedLength (buf ++ more) = some n := by
  match buf, h with
  | _ :: _ :: _ :: _, h => exact h

theorem expectedLength_eq_none_iff (buf : List Byte) :
    expectedLength buf = none ↔ buf.length < 3 := by
  match buf with
  | [] => simp [expectedLength]
  | [_] => simp [expectedLength]
  | [_, _] => simp [expectedLength]
  | _ :: _ :: _ :: _ => simp [expectedLength]

/-- A byte after an unfinished candidate brings it at most to the expected length. -/
theorem length_append_le_expectedLength {buf : List Byte}
    (h : ∀ n, expectedLength buf = some n → buf.length < n) (b : Byte) {n : Nat}
    (hn : expectedLength (buf ++ [b]) = some n) : (buf ++ [b]).length ≤ n := by
  rw [List.length_append, List.length_singleton]
  cases hbuf : expectedLength buf with
  | none =>
    have hshort := (expectedLength_eq_none_iff buf).1 hbuf
    have hmin := (expectedLength_range hn).1
    simp only [minFrame] at hmin
    omega
  | some m =>
    have hm : some m = some n := (expectedLength_append hbuf [b]).symm.trans hn
    cases hm
    exact h n hbuf

/-- A buffer within its expected length is within `BUF_MAX` (10_state.md R38). -/
theorem length_le_maxFrame {buf : List Byte}
    (h : ∀ n, expectedLength buf = some n → buf.length ≤ n) : buf.length ≤ maxFrame := by
  cases hbuf : expectedLength buf with
  | none =>
    have hshort := (expectedLength_eq_none_iff buf).1 hbuf
    simp only [maxFrame]
    omega
  | some n => exact Nat.le_trans (h n hbuf) (expectedLength_range hbuf).2

/-! ### The buffer's shape, phase by phase (10_state.md R39) -/

theorem bufShape_accumulating_lengthAware {s : State} (hp : s.phase = .accumulating)
    (hf : s.cfg.framing = .lengthAware) :
    bufShape s ↔ s.buf.head? = some stx ∧ ∀ n, expectedLength s.buf = some n → s.buf.length < n := by
  simp [bufShape, hp, hf]

theorem bufShape_accumulating_sentinel {s : State} (hp : s.phase = .accumulating)
    (hf : s.cfg.framing = .sentinel) :
    bufShape s ↔ s.buf.head? = some stx ∧ etx ∉ s.buf.tail ∧
      ∀ cap, s.cfg.accCap = some cap → s.buf.length < cap := by
  simp [bufShape, hp, hf]

theorem bufShape_complete_lengthAware {s : State} (hp : s.phase = .complete)
    (hf : s.cfg.framing = .lengthAware) :
    bufShape s ↔ s.buf.head? = some stx ∧ expectedLength s.buf = some s.buf.length := by
  simp [bufShape, hp, hf]

theorem bufShape_complete_sentinel {s : State} (hp : s.phase = .complete)
    (hf : s.cfg.framing = .sentinel) :
    bufShape s ↔ s.buf.head? = some stx ∧ s.buf.getLast? = some etx := by
  simp [bufShape, hp, hf]

theorem bufMax_lengthAware {c : Config} (h : c.framing = .lengthAware) :
    bufMax c = some maxFrame := by
  simp [bufMax, h]

theorem bufMax_sentinel {c : Config} (h : c.framing = .sentinel) : bufMax c = c.accCap := by
  simp [bufMax, h]

/-! ### What keeps the invariant -/

/-- The invariant speaks of the configuration and the block's registers only. -/
theorem inv_record {s : State} (h : Inv s) (e : Event) (rest : List Input) :
    Inv (record e { s with inputs := rest }) :=
  ⟨h.cfg, h.shape, h.bound, h.outcome, h.resp⟩

theorem inv_toScanning {s : State} (h : configOk s.cfg = true) : Inv (toScanning s) :=
  ⟨h, rfl, fun n _ => Nat.zero_le n, rfl, rfl⟩

theorem inv_abandon {s : State} (h : configOk s.cfg = true) : Inv (abandon s) := inv_toScanning h

/-- A start marker alone is an unfinished candidate in both modes. -/
theorem inv_opened {s : State} (h : Inv s) :
    Inv { s with buf := [stx], phase := .accumulating } := by
  cases hf : s.cfg.framing with
  | lengthAware =>
    have hshape := (bufShape_accumulating_lengthAware
      (s := { s with buf := [stx], phase := .accumulating }) rfl hf).2 ⟨rfl, fun n hn => nomatch hn⟩
    have hbound : [stx].length ≤ maxFrame := by decide
    refine ⟨h.cfg, hshape, fun n hn => ?_, h.outcome, h.resp⟩
    cases (bufMax_lengthAware hf).symm.trans hn
    exact hbound
  | sentinel =>
    have hcap : ∀ cap, s.cfg.accCap = some cap → 1 < cap := fun cap hc => by
      have := configOk_cap h.cfg hc
      omega
    have hshape := (bufShape_accumulating_sentinel
      (s := { s with buf := [stx], phase := .accumulating }) rfl hf).2 ⟨rfl, List.not_mem_nil, hcap⟩
    have hbound : ∀ n, bufMax s.cfg = some n → 1 ≤ n := fun n hn =>
      Nat.le_of_lt (hcap n ((bufMax_sentinel hf).symm.trans hn))
    exact ⟨h.cfg, hshape, hbound, h.outcome, h.resp⟩

theorem inv_onByte_lengthAware {s : State} (h : Inv s) (hp : s.phase = .accumulating)
    (hf : s.cfg.framing = .lengthAware) (b : Byte) : Inv (onByte b s) := by
  obtain ⟨hhead, hopen⟩ := (bufShape_accumulating_lengthAware hp hf).1 h.shape
  have hhead' : (s.buf ++ [b]).head? = some stx := by simp [hhead]
  have hle : ∀ n, expectedLength (s.buf ++ [b]) = some n → (s.buf ++ [b]).length ≤ n :=
    fun n => length_append_le_expectedLength hopen b
  have hbound : ∀ n, bufMax s.cfg = some n → (s.buf ++ [b]).length ≤ n := fun n hn => by
    cases (bufMax_lengthAware hf).symm.trans hn
    exact length_le_maxFrame hle
  rw [onByte_lengthAware hp hf]
  by_cases hend : expectedLength (s.buf ++ [b]) = some (s.buf ++ [b]).length
  · rw [endTestLengthAware_done hend]
    have hshape := (bufShape_complete_lengthAware
      (s := { appendByte b s with phase := .complete }) rfl hf).2 ⟨hhead', hend⟩
    exact ⟨h.cfg, hshape, hbound, h.outcome, h.resp⟩
  · rw [endTestLengthAware_wait hend]
    have hopen' : ∀ n, expectedLength (s.buf ++ [b]) = some n → (s.buf ++ [b]).length < n :=
      fun n hn => Nat.lt_of_le_of_ne (hle n hn) fun heq => hend (heq ▸ hn)
    have hshape := (bufShape_accumulating_lengthAware (s := appendByte b s) hp hf).2 ⟨hhead', hopen'⟩
    exact ⟨h.cfg, hshape, hbound, h.outcome, h.resp⟩

theorem inv_onByte_sentinel {s : State} (h : Inv s) (hp : s.phase = .accumulating)
    (hf : s.cfg.framing = .sentinel) (b : Byte) : Inv (onByte b s) := by
  obtain ⟨hhead, hopen, hcap⟩ := (bufShape_accumulating_sentinel hp hf).1 h.shape
  have hhead' : (s.buf ++ [b]).head? = some stx := by simp [hhead]
  have hlen : (s.buf ++ [b]).length = s.buf.length + 1 := List.length_append
  have hbound : ∀ n, bufMax s.cfg = some n → (s.buf ++ [b]).length ≤ n := fun n hn =>
    hlen ▸ hcap n ((bufMax_sentinel hf).symm.trans hn)
  rw [onByte_sentinel hp hf]
  by_cases hb : b = etx
  · subst hb
    rw [endTestSentinel_etx]
    have hshape := (bufShape_complete_sentinel
      (s := { appendByte etx s with phase := .complete }) rfl hf).2 ⟨hhead', List.getLast?_concat⟩
    exact ⟨h.cfg, hshape, hbound, h.outcome, h.resp⟩
  · by_cases hfull : ∀ cap, s.cfg.accCap = some cap → (s.buf ++ [b]).length < cap
    · have hnil : s.buf ≠ [] := fun hnil => by rw [hnil] at hhead; cases hhead
      have hopen' : etx ∉ (s.buf ++ [b]).tail := by
        rw [List.tail_append_of_ne_nil hnil]
        simp [hopen, Ne.symm hb]
      have hshape := (bufShape_accumulating_sentinel (s := appendByte b s) hp hf).2
        ⟨hhead', hopen', hfull⟩
      rw [endTestSentinel_wait hb hfull]
      exact ⟨h.cfg, hshape, hbound, h.outcome, h.resp⟩
    · obtain ⟨cap, hc, hge⟩ : ∃ cap, s.cfg.accCap = some cap ∧ cap ≤ (s.buf ++ [b]).length := by
        simpa using hfull
      rw [endTestSentinel_cap (s := appendByte b s) hb hc hge]
      exact inv_abandon h.cfg

theorem onByte_complete {s : State} (h : s.phase = .complete) (b : Byte) : onByte b s = s := by
  simp [onByte, h]

theorem inv_onByte {s : State} (h : Inv s) (b : Byte) : Inv (onByte b s) := by
  cases hp : s.phase with
  | scanning =>
    rw [onByte_scanning hp]
    by_cases hb : b = stx
    · rw [hb, onByteScanning_stx]
      exact inv_opened h
    · rwa [onByteScanning_other hb]
  | accumulating =>
    cases hf : s.cfg.framing with
    | lengthAware => exact inv_onByte_lengthAware h hp hf b
    | sentinel => exact inv_onByte_sentinel h hp hf b
  | complete => rwa [onByte_complete hp]

theorem inv_onIdleTimeout {s : State} (h : Inv s) : Inv (onIdleTimeout s) := by
  unfold onIdleTimeout
  split
  · exact inv_abandon h.cfg
  · exact h

theorem inv_react {s : State} (h : Inv s) (i : Input) : Inv (react i s) := by
  cases i with
  | rxByte b => exact inv_onByte h b
  | idleTimeout => exact inv_onIdleTimeout h
  | reset k => exact inv_toScanning h.cfg

theorem inv_takeInput {s : State} (h : Inv s) : Inv (takeInput s) := by
  cases hi : s.inputs with
  | nil => rwa [takeInput_nil hi]
  | cons i rest =>
    rw [takeInput_cons hi]
    exact inv_react (inv_record h _ rest) i

/-- Settles O44: a step in Complete returns to Scanning with the same configuration
(`inv_toScanning`); outside it a step takes an input (`inv_takeInput`). -/
theorem everyStepKeepsTheInvariant : Obligations.EveryStepKeepsTheInvariant := by
  intro s t h hstep
  by_cases hs : s.phase = .complete
  · have hcfg : configOk t.cfg = true := by rw [step_cfg hstep, h.cfg]
    obtain ⟨u, -, rfl, -, -⟩ := step_complete_emits_outputs hs hstep
    exact inv_toScanning hcfg
  · rw [step_of_not_complete hs] at hstep
    cases hstep
    exact inv_takeInput h

/-- Settles O45: the reset state is in Scanning with an empty buffer, in the reference configuration. -/
theorem resetMeetsTheInvariant : Obligations.ResetMeetsTheInvariant :=
  ⟨by decide, rfl, fun n _ => Nat.zero_le n, rfl, rfl⟩

/-- Settles O46: the registers are those of `State.reset`, and with no input a step waits
(`takeInput_nil`). -/
theorem resetStateScansWithEmptyBuffer : Obligations.ResetStateScansWithEmptyBuffer := by
  have hwait : step State.reset = .next State.reset := by
    rw [step_of_scanning rfl, takeInput_nil rfl]
  exact ⟨rfl, rfl, rfl, rfl, hwait⟩

/-- Settles O48: no step writes the configuration (`step_cfg`). -/
theorem configurationIsStatic : Obligations.ConfigurationIsStatic :=
  fun _ _ => step_cfg

/-! ### No step stops (60_exceptions.md R249) -/

/-- In Complete, in a configuration of R12's domain, every command answers a next state: its response
has at most 63 payload bytes. -/
theorem exec_complete_next {s : State} (hs : s.phase = .complete) (hc : configOk s.cfg = true)
    (i : Instr) : ∃ t, exec i s = .next t := by
  obtain ⟨hhigh, hlow⟩ := configOk_acks hc
  cases i with
  | read v p io data => exact ⟨_, respond_complete (by simpa using hs) v p io .read (by simp)⟩
  | writeOn v p io rest => exact ⟨_, respond_complete (by simpa using hs) v p io .write hhigh⟩
  | writeOff v p io rest => exact ⟨_, respond_complete (by simpa using hs) v p io .write hlow⟩
  | writeInvalid v p io d0 rest =>
    exact ⟨_, respond_complete (by simpa using hs) v p io .write (by decide)⟩
  | writeNodata v p io => exact ⟨_, respond_complete hs v p io .write (by decide)⟩

/-- A decode error is taken in every configuration of R12's domain: Encode admits the diagnostic
Message. -/
theorem onDecodeError_next {s : State} (hc : configOk s.cfg = true) (k : DecodeError) :
    ∃ t, onDecodeError k s = .next t := by
  unfold onDecodeError
  split
  next => exact ⟨_, rfl⟩
  next d hd => exact ⟨_, transmitMsg_of_wf (configOk_diag hc hd) _⟩

theorem step_complete_next {s : State} (hs : s.phase = .complete) (hc : configOk s.cfg = true) :
    ∃ t, step s = .next t := by
  cases hd : decode s.cfg.decodeExcess s.buf with
  | ok m =>
    obtain ⟨u, hu⟩ := exec_complete_next (s := writeOutcome (.ok m) s) hs hc (Instr.ofMessage m)
    exact ⟨toScanning u, by rw [step_of_decode_ok hs hd, hu, mapNext_next]⟩
  | err k =>
    obtain ⟨u, hu⟩ := onDecodeError_next (s := writeOutcome (.err k) s) hc k
    exact ⟨toScanning u, by rw [step_of_decode_err hs hd, hu, mapNext_next]⟩

/-- Settles O47: the invariant keeps the configuration in R12's domain (`step_complete_next`), and
outside Complete a step always answers. -/
theorem noErrorIsFatal : Obligations.NoErrorIsFatal := by
  intro s h
  by_cases hs : s.phase = .complete
  · exact step_complete_next hs h.cfg
  · exact ⟨_, step_of_not_complete hs⟩

/-- Settles O24: every command ends in a response, whose read of `T.resp` faults outside Complete. -/
theorem commandsFaultOutsideComplete : Obligations.CommandsFaultOutsideComplete := by
  intro i s hs
  have hfault : ∀ {u : State}, u.phase = s.phase → ∀ v p io rw payload,
      respond v p io rw payload u = .fault .transientOutsideComplete := fun hu v p io rw payload => by
    simp [respond, send, readResp, readTransient, hu, hs]
  cases i with
  | read v p io data => exact hfault (by simp) ..
  | writeOn v p io rest => exact hfault (by simp) ..
  | writeOff v p io rest => exact hfault (by simp) ..
  | writeInvalid v p io d0 rest => exact hfault (by simp) ..
  | writeNodata v p io => exact hfault rfl ..

end Sys2Proof.Machine
end

section
/-!
The checksum and Decode, check by check (40_codec.md R120 to R146). The checksum is a sum of bytes that
wraps (`checksum_eq_add`). Each check of `decode` has its own lemma, and `decode_err_cases` is the converse:
what each error says of the buffer.
-/

namespace Sys2Proof

/-! ### The checksum as a sum of bytes -/

/-- A sum of numbers, taken modulo 256 at the end or at each byte. -/
theorem ofNat_sum_map_toNat (data : List Byte) :
    BitVec.ofNat 8 (data.map BitVec.toNat).sum = data.sum := by
  induction data with
  | nil => rfl
  | cons b data ih =>
    rw [List.map_cons, List.sum_cons, List.sum_cons, BitVec.ofNat_add, ih, BitVec.ofNat_toNat,
      BitVec.setWidth_eq]

theorem checksum_eq_add (version pin : Byte) (io : Io) (rw : Rw) (length : Byte) (data : List Byte) :
    checksum version pin io rw length data =
      version + pin + BitVec.ofNat 8 io.code + BitVec.ofNat 8 rw.code + length + data.sum := by
  simp only [checksum, sum8, List.sum_append, BitVec.ofNat_add, ofNat_sum_map_toNat, List.sum_cons,
    List.sum_nil, BitVec.ofNat_toNat, BitVec.setWidth_eq, Nat.add_zero, BitVec.add_assoc]

theorem foldl_add_eq_add_sum (data : List Byte) (start : Byte) :
    data.foldl (fun acc b => acc + b) start = start + data.sum := by
  induction data generalizing start with
  | nil => simp
  | cons b data ih => rw [List.foldl_cons, ih, List.sum_cons, BitVec.add_assoc]

/-- Settles O3: both are the wrapping sum of the fields and the data bytes (`checksum_eq_add`). -/
theorem checksumMayBeReducedAfterEachAddition :
    Obligations.ChecksumMayBeReducedAfterEachAddition := by
  intro version pin io rw length data
  rw [checksum_eq_add, foldl_add_eq_add_sum]

/-! ### Encode outside the fields' widths (40_codec.md R126 to R128) -/

/-- `packH1` keeps the version's low three bits and the pin's low five. -/
theorem packH1_mask (v p : Byte) : packH1 (v &&& 0x07#8) (p &&& 0x1F#8) = packH1 v p := by
  have hv : (v &&& 0x07#8).toNat = v.toNat % 8 := toNat_and_lowMask 3 (by decide) v
  have hp : (p &&& 0x1F#8).toNat = p.toNat % 32 := toNat_and_lowMask 5 (by decide) p
  rw [packH1_eq_ofNat, packH1_eq_ofNat, hv, hp]
  apply BitVec.eq_of_toNat_eq
  simp only [BitVec.toNat_ofNat]
  omega

/-- `packH2` keeps the length's low six bits. -/
theorem packH2_mask (io : Io) (rw : Rw) (l : Byte) : packH2 io rw (l &&& 0x3F#8) = packH2 io rw l := by
  have hl : (l &&& 0x3F#8).toNat = l.toNat % 64 := toNat_and_lowMask 6 (by decide) l
  rw [packH2_eq_ofNat, packH2_eq_ofNat, hl, Nat.mod_mod]

/-- Settles O4: Encode looks at the data length only; masking the fields first changes no header byte
(`packH1_mask`, `packH2_mask`), and the checksum is of the fields as they are. -/
theorem encodeMasksHeaderAndSumsRawFields : Obligations.EncodeMasksHeaderAndSumsRawFields := by
  intro m
  refine ⟨fun hne => by rw [encodeMsg, if_neg hne], fun heq => ?_⟩
  rw [encodeMsg, if_pos heq, packH1_mask, packH2_mask, ← m.sum_eq_ofNat]
  rfl

/-! ### Decode, check by check (40_codec.md R131 to R137) -/

theorem decode_below_floor (x : Excess) {buf : List Byte} (h : buf.length < decodeFloor) :
    decode x buf = .err .frameTooShort := by
  unfold decode
  exact if_pos h

theorem decode_bad_start (x : Excess) {buf : List Byte} (h4 : ¬ buf.length < decodeFloor)
    (hs : buf.head? ≠ some stx) : decode x buf = .err .invalidStart := by
  unfold decode
  exact (if_neg h4).trans (if_pos hs)

theorem decode_bad_end (x : Excess) {buf : List Byte} (h4 : ¬ buf.length < decodeFloor)
    (hs : buf.head? = some stx) (he : buf.getLast? ≠ some etx) :
    decode x buf = .err .invalidEnd := by
  unfold decode
  exact (if_neg h4).trans ((if_neg fun hne => hne hs).trans (if_pos he))

theorem decodeBody_short (x : Excess) {n : Nat} {h1 h2 : Byte} {body : List Byte}
    (hn : n < 5 + (h2Length h2).toNat) : decodeBody x n h1 h2 body = .err .frameTooShort := by
  unfold decodeBody
  exact if_pos (by omega)

theorem decodeBody_excess {n : Nat} {h1 h2 : Byte} {body : List Byte}
    (hn : 5 + (h2Length h2).toNat < n) : decodeBody .reject n h1 h2 body = .err .invalidEnd := by
  unfold decodeBody
  exact (if_neg (by omega)).trans (if_pos ⟨by omega, rfl⟩)

theorem decodeBody_mismatch {x : Excess} {n : Nat} {h1 h2 c : Byte} {body rest : List Byte}
    (hn : 5 + (h2Length h2).toNat ≤ n) (hx : x = .ignore ∨ n = 5 + (h2Length h2).toNat)
    (hd : body.drop (h2Length h2).toNat = c :: rest)
    (hc : checksum (h1Version h1) (h1Pin h1) (h2Io h2) (h2Rw h2) (h2Length h2)
      (body.take (h2Length h2).toNat) ≠ c) :
    decodeBody x n h1 h2 body = .err .checksumMismatch := by
  have hbound : ¬ n < 3 + (h2Length h2).toNat + 2 := by omega
  have hexcess : ¬ (n ≠ 5 + (h2Length h2).toNat ∧ x = .reject) := by
    rintro ⟨hne, rfl⟩
    exact hx.elim (fun h => nomatch h) hne
  simp [decodeBody, hbound, hexcess, hd, hc]

theorem decodeBody_err_cases {x : Excess} {h1 h2 : Byte} {body : List Byte} {k : DecodeError}
    (h : decodeBody x (body.length + 3) h1 h2 body = .err k) :
    (k = .frameTooShort ∧ body.length + 3 < 5 + (h2Length h2).toNat) ∨
      (k = .invalidEnd ∧ x = .reject) ∨ k = .checksumMismatch := by
  unfold decodeBody at h
  simp only at h
  split at h
  next hn =>
    cases h
    exact .inl ⟨rfl, by omega⟩
  next hn =>
    split at h
    next hx =>
      cases h
      exact .inr (.inl ⟨rfl, hx.2⟩)
    next =>
      split at h
      next hdrop =>
        have hlen := List.drop_eq_nil_iff.1 hdrop
        omega
      next =>
        split at h
        next =>
          cases h
          exact .inr (.inr rfl)
        next => cases h

/-- Every way Decode can fail (40_codec.md R140). -/
theorem decode_err_cases {x : Excess} {buf : List Byte} {k : DecodeError}
    (h : decode x buf = .err k) :
    (k = .frameTooShort ∧ (buf.length < decodeFloor ∨
      ∃ b0 h1 h2 body, buf = b0 :: h1 :: h2 :: body ∧ buf.length < 5 + (h2Length h2).toNat)) ∨
    (k = .invalidStart ∧ buf.head? ≠ some stx) ∨
    (k = .invalidEnd ∧ (buf.getLast? ≠ some etx ∨ x = .reject)) ∨
    k = .checksumMismatch := by
  unfold decode at h
  split at h
  next hfloor =>
    cases h
    exact .inl ⟨rfl, .inl hfloor⟩
  next hfloor =>
    split at h
    next hs =>
      cases h
      exact .inr (.inl ⟨rfl, hs⟩)
    next =>
      split at h
      next he =>
        cases h
        exact .inr (.inr (.inl ⟨rfl, .inl he⟩))
      next =>
        split at h
        next b0 h1 h2 body _ _ =>
          obtain ⟨rfl, hn⟩ | ⟨rfl, hx⟩ | rfl := decodeBody_err_cases h
          · exact .inl ⟨rfl, .inr ⟨b0, h1, h2, body, rfl, hn⟩⟩
          · exact .inr (.inr (.inl ⟨rfl, .inr hx⟩))
          · exact .inr (.inr (.inr rfl))
        next hshort =>
          match buf with
          | [] => exact absurd (Nat.zero_lt_succ 3) hfloor
          | [_] => exact absurd (Nat.one_lt_succ_succ 2) hfloor
          | [_, _] => exact absurd (Nat.le_succ 3) hfloor
          | b0 :: h1 :: h2 :: body => exact absurd rfl (hshort b0 h1 h2 body)

/-- Settles O5: the checks one by one; between the markers `decodeBody` decides
(`decode_of_markers`). -/
theorem decodeReportsTheFirstFailingCheck : Obligations.DecodeReportsTheFirstFailingCheck := by
  refine ⟨fun x buf => decode_below_floor x, fun x b0 h1 h2 last mid => ?_⟩
  intro buf len
  have hfloor : ¬ buf.length < decodeFloor := by simp [buf, decodeFloor]
  have hlast : buf.getLast? = some last := by simp [buf, List.getLast?_cons]
  have hlen : (h2Length h2).toNat = len := toNat_h2Length h2
  have hsize : buf.length = (mid ++ [last]).length + 3 := rfl
  have hbody : b0 = stx → last = etx → ∀ x,
      decode x buf = decodeBody x buf.length h1 h2 (mid ++ [last]) := fun hb hl x => by
    subst hb hl
    exact decode_of_markers x h1 h2 _ (by simp) List.getLast?_concat
  refine ⟨fun hb => ?_, fun hb hl => ?_, fun hb hl hn => ?_, fun hb hl hn hx hc => ?_,
    fun hb hl hn => ?_⟩
  · exact decode_bad_start x hfloor fun h => hb (Option.some.inj h)
  · exact decode_bad_end x hfloor (congrArg some hb) fun h => hl (Option.some.inj (hlast.symm.trans h))
  · rw [hbody hb hl]
    exact decodeBody_short x (by omega)
  · have hmid : len < mid.length := by simp [buf] at hn; omega
    have hdrop : (mid ++ [last]).drop len = mid[len] :: (mid.drop (len + 1) ++ [last]) := by
      rw [List.drop_append_of_le_length (Nat.le_of_lt hmid), List.drop_eq_getElem_cons hmid, List.cons_append]
    have hcheck : buf[3 + len]? = some mid[len] := by
      rw [Nat.add_comm]
      simp [buf, List.getElem?_append_left hmid]
    rw [hcheck] at hc
    rw [hbody hb hl]
    refine decodeBody_mismatch (by omega) (by rwa [hlen]) (by rwa [hlen]) fun h => hc ?_
    rw [← h, hlen, List.take_append_of_le_length (Nat.le_of_lt hmid)]
  · rw [hbody hb hl]
    exact decodeBody_excess (by omega)

/-- Settles O16: each frame is evaluated. -/
theorem writtenFramesDecodeToTheirCommands : Obligations.WrittenFramesDecodeToTheirCommands :=
  ⟨rfl, rfl, rfl, rfl, rfl⟩

/-! ### What framing leaves for Decode to find (41_framing.md R178) -/

/-- A buffer of the length its own header expects is not too short. -/
theorem decode_ne_frameTooShort (x : Excess) {buf : List Byte}
    (h : Machine.expectedLength buf = some buf.length) : decode x buf ≠ .err .frameTooShort := by
  intro herr
  obtain ⟨-, hfloor | ⟨b0, h1, h2, body, rfl, hn⟩⟩ | ⟨hk, -⟩ | ⟨hk, -⟩ | hk := decode_err_cases herr
  · have hmin := (Machine.expectedLength_range h).1
    simp only [decodeFloor, minFrame] at hfloor hmin
    omega
  · have hlen : 5 + (h2Length h2).toNat = (b0 :: h1 :: h2 :: body).length := Option.some.inj h
    omega
  · cases hk
  · cases hk
  · cases hk

theorem decode_ne_invalidStart (x : Excess) {buf : List Byte} (h : buf.head? = some stx) :
    decode x buf ≠ .err .invalidStart := by
  intro herr
  obtain ⟨hk, -⟩ | ⟨-, hs⟩ | ⟨hk, -⟩ | hk := decode_err_cases herr
  · cases hk
  · exact hs h
  · cases hk
  · cases hk

theorem decode_ignore_ne_invalidEnd {buf : List Byte} (h : buf.getLast? = some etx) :
    decode .ignore buf ≠ .err .invalidEnd := by
  intro herr
  obtain ⟨hk, -⟩ | ⟨hk, -⟩ | ⟨-, he | hx⟩ | hk := decode_err_cases herr
  · cases hk
  · cases hk
  · exact he h
  · cases hx
  · cases hk

/-- Settles O35: the buffer's shape in Complete is what each error contradicts. -/
theorem framingExcludesDecodeErrors : Obligations.FramingExcludesDecodeErrors := by
  intro s h hs
  have hhead : s.buf.head? = some stx := by
    cases hf : s.cfg.framing with
    | lengthAware => exact ((Machine.bufShape_complete_lengthAware hs hf).1 h.shape).1
    | sentinel => exact ((Machine.bufShape_complete_sentinel hs hf).1 h.shape).1
  refine ⟨decode_ne_invalidStart _ hhead, fun hf => ?_, fun hf hx => ?_⟩
  · exact decode_ne_frameTooShort _ ((Machine.bufShape_complete_lengthAware hs hf).1 h.shape).2
  · rw [hx]
    exact decode_ignore_ne_invalidEnd ((Machine.bufShape_complete_sentinel hs hf).1 h.shape).2

end Sys2Proof
end

section
/-!
Frames changed on the way (40_codec.md R137 to R146): with bytes inserted, permuted or a bit flipped. What
Decode accepts is the frame of a well-formed Message with excess bytes at most (`decode_ok_layout`); a
frame whose checksum byte differs from its fields' sum is a mismatch (`decode_exact_mismatch`), and a
flipped bit changes exactly one summand of the two.
-/

namespace Sys2Proof

/-! ### What Decode accepts -/

/-- The converse of `decode_frame_with_excess`: a decoded buffer is the frame of a well-formed Message,
with excess bytes after the checksum at most. -/
theorem decode_ok_layout {x : Excess} {buf : List Byte} {m : Message} (h : decode x buf = .ok m) :
    m.wf = true ∧ buf.getLast? = some etx ∧ ∃ rest,
      buf = stx :: packH1 m.version m.pin :: packH2 m.io m.rw m.length :: (m.data ++ m.sum :: rest) := by
  obtain ⟨h1, h2, body, rfl, hlast, hbody⟩ := decode_ok h
  obtain ⟨hn, -, hver, hpin, hio, hrw, hlen, hdata, hsum, rest, hdrop⟩ := decodeBody_ok hbody
  have hsize : m.data.length = m.length.toNat := by
    simp only [List.length_cons] at hn
    rw [hdata, List.length_take]
    omega
  refine ⟨m.wf_iff.2 ⟨?_, ?_, ?_, hsize, hsum⟩, hlast, rest, ?_⟩
  · rw [hpin]; exact (h1_range h1).2
  · rw [hver]; exact (h1_range h1).1
  · rw [hlen]; exact h2Length_range h2
  · rw [hdata, ← hsum, ← hdrop, List.take_append_drop, hver, hpin, packH1_unpack, hio, hrw, hlen,
      packH2_unpack]

/-- Settles O7: the first part of `decode_ok_layout`. -/
theorem decodedMessageIsWellFormed : Obligations.DecodedMessageIsWellFormed :=
  fun _ _ _ h => (decode_ok_layout h).1

/-- Settles O10: the buffer is laid out as the Message's frame, whose end marker stands after the
checksum (`decode_ok_layout`). -/
theorem encodeOfDecodedIsTheBuffer : Obligations.EncodeOfDecodedIsTheBuffer := by
  intro x buf m h
  obtain ⟨hwf, hlast, rest, rfl⟩ := decode_ok_layout h
  obtain ⟨-, -, -, hdata, -⟩ := m.wf_iff.1 hwf
  rw [encodeMsg_of_wf hwf, frameBytes_eq]
  refine ⟨fun hlen => ?_, ?_⟩
  · obtain ⟨last, rfl⟩ : ∃ last, rest = [last] := by
      rw [← List.length_eq_one_iff]
      simp [hdata] at hlen
      omega
    obtain rfl : last = etx := by simpa [List.getLast?_cons] using hlast
    rfl
  · have htake : (m.data ++ m.sum :: rest).take (m.length.toNat + 1) = m.data ++ [m.sum] := by
      rw [← hdata, List.take_length_add_append]
      rfl
    rw [show 4 + m.length.toNat = m.length.toNat + 1 + 1 + 1 + 1 by omega]
    simp only [List.take_succ_cons, htake, List.cons_append, List.append_assoc, List.nil_append]

/-! ### Bytes inserted or permuted -/

/-- A frame with bytes inserted before its end marker (40_codec.md R137). -/
theorem frame_with_excess_eq (m : Message) (extra : List Byte) :
    (frameBytes m).dropLast ++ extra ++ [etx] =
      stx :: packH1 m.version m.pin :: packH2 m.io m.rw m.length ::
        (m.data ++ m.sum :: (extra ++ [etx])) := by
  have hframe : frameBytes m =
      [stx, packH1 m.version m.pin, packH2 m.io m.rw m.length] ++ m.data ++ [m.sum] ++ [etx] := by
    simp [frameBytes]
  rw [hframe, List.dropLast_concat]
  simp

/-- Settles O6: `IGNORE` does not look at the inserted bytes (`decode_frame_with_excess`); `REJECT`
counts them (`decodeBody_excess`). -/
theorem excessBytesAreIgnoredOrRejected : Obligations.ExcessBytesAreIgnoredOrRejected := by
  intro m extra hwf hne buf
  obtain ⟨-, -, hlen, hdata, -⟩ := m.wf_iff.1 hwf
  have hbuf : buf = _ := frame_with_excess_eq m extra
  have hpos := List.length_pos_iff.2 hne
  rw [hbuf]
  refine ⟨?_, decode_frame_with_excess hwf extra fun h => nomatch h⟩
  rw [decode_of_markers _ _ _ _ (by simp) (by simp [List.getLast?_cons])]
  apply decodeBody_excess
  rw [(h2_packH2 m.io m.rw hlen).2.2]
  simp [hdata]
  omega

theorem sum_eq_of_perm {xs ys : List Byte} (h : xs.Perm ys) : xs.sum = ys.sum := by
  induction h with
  | nil => rfl
  | cons b _ ih => rw [List.sum_cons, List.sum_cons, ih]
  | swap b c xs =>
    rw [List.sum_cons, List.sum_cons, List.sum_cons, List.sum_cons, ← BitVec.add_assoc,
      ← BitVec.add_assoc, BitVec.add_comm b c]
  | trans _ _ ih ih' => exact ih.trans ih'

/-- Permuting the data bytes changes neither the length nor the sum. -/
theorem wf_of_data_perm {m : Message} (hwf : m.wf = true) {data : List Byte} (h : data.Perm m.data) :
    ({ m with data := data } : Message).wf = true := by
  obtain ⟨hpin, hver, hlen, hdata, hsum⟩ := m.wf_iff.1 hwf
  have hsum' : ({ m with data := data } : Message).sum = m.sum := by
    simp only [Message.sum, checksum_eq_add, sum_eq_of_perm h]
  exact (Message.wf_iff _).2 ⟨hpin, hver, hlen, h.length_eq.trans hdata, hsum.trans hsum'.symm⟩

/-- Settles O13: the buffer is the frame of a well-formed Message (`wf_of_data_perm`). -/
theorem reorderedDataIsNotDetected : Obligations.ReorderedDataIsNotDetected := by
  intro x m data hwf hperm
  have hwf' := wf_of_data_perm hwf hperm
  obtain ⟨-, -, -, -, hsum⟩ := (Message.wf_iff _).1 hwf'
  have hdec := decode_frameBytes x hwf'
  rw [frameBytes, ← hsum] at hdec
  exact hdec

/-! ### Flipped bits -/

/-- A flip is an exclusive or with a byte that is not 0. -/
theorem xor_ne_self {a b : Byte} (h : b ≠ 0#8) : a ^^^ b ≠ a := fun heq =>
  h ((BitVec.xor_right_inj a).1 (heq.trans BitVec.xor_zero.symm))

theorem one_shiftLeft_ne_zero : ∀ bit < 8, (1#8 : Byte) <<< bit ≠ 0#8 := by decide

/-- Settles O12: a flipped marker is no marker (`xor_ne_self`), and the two marker checks come before
all others. -/
theorem flippedMarkerIsReported : Obligations.FlippedMarkerIsReported := by
  intro x m bit hwf hbit
  obtain ⟨-, -, -, hdata, -⟩ := m.wf_iff.1 hwf
  have hflip : ∀ b : Byte, b ^^^ (1#8 <<< bit) ≠ b := fun b =>
    xor_ne_self (one_shiftLeft_ne_zero bit hbit)
  have hfloor : ∀ offset, ¬ (Machine.flipBit (frameBytes m) offset bit).length < decodeFloor :=
    fun offset => by simp [Machine.flipBit, decodeFloor]
  refine ⟨decode_bad_start x (hfloor 0) fun h => hflip stx (Option.some.inj h), ?_⟩
  refine decode_bad_end x (hfloor _) ?_ fun h => hflip etx ?_
  · rw [Nat.add_comm]; rfl
  · rw [List.getLast?_eq_getElem?, Machine.flipBit, List.length_modify, frameBytes_length, ← hdata,
      show m.data.length + 5 - 1 = 4 + m.data.length by omega, List.getElem?_modify_eq,
      frameBytes_getElem?_etx] at h
    exact Option.some.inj h

theorem h1Version_xor (a b : Byte) : h1Version (a ^^^ b) = h1Version a ^^^ h1Version b :=
  BitVec.eq_of_getLsbD_eq fun i _ => by
    rw [getLsbD_h1Version, BitVec.getLsbD_xor, BitVec.getLsbD_xor, getLsbD_h1Version,
      getLsbD_h1Version, Bool.and_xor_distrib_left]

theorem h1Pin_xor (a b : Byte) : h1Pin (a ^^^ b) = h1Pin a ^^^ h1Pin b :=
  BitVec.eq_of_getLsbD_eq fun i _ => by
    rw [getLsbD_h1Pin, BitVec.getLsbD_xor, BitVec.getLsbD_xor, getLsbD_h1Pin, getLsbD_h1Pin,
      Bool.and_xor_distrib_left]

theorem h2Length_xor (a b : Byte) : h2Length (a ^^^ b) = h2Length a ^^^ h2Length b :=
  BitVec.eq_of_getLsbD_eq fun i _ => by
    rw [getLsbD_h2Length, BitVec.getLsbD_xor, BitVec.getLsbD_xor, getLsbD_h2Length,
      getLsbD_h2Length, Bool.and_xor_distrib_left]

/-- Each bit of header byte 1 belongs to exactly one of its two fields (30_encoding.md R91). -/
theorem h1_one_field : ∀ bit < 8,
    (h1Version (1#8 <<< bit) = 0#8 ∧ h1Pin (1#8 <<< bit) ≠ 0#8) ∨
    (h1Version (1#8 <<< bit) ≠ 0#8 ∧ h1Pin (1#8 <<< bit) = 0#8) := by decide

/-- A flip in header byte 1 changes the sum of its fields. -/
theorem h1_sum_flip_ne (b : Byte) {bit : Nat} (hbit : bit < 8) :
    h1Version (b ^^^ (1#8 <<< bit)) + h1Pin (b ^^^ (1#8 <<< bit)) ≠ h1Version b + h1Pin b := by
  rw [h1Version_xor, h1Pin_xor]
  obtain ⟨hv, hp⟩ | ⟨hv, hp⟩ := h1_one_field bit hbit
  · rw [hv, BitVec.xor_zero]
    exact fun h => xor_ne_self hp ((BitVec.add_right_inj _).1 h)
  · rw [hp, BitVec.xor_zero]
    exact fun h => xor_ne_self hv ((BitVec.add_left_inj _).1 h)

/-- A flip of bit 6 or 7 leaves the length field (30_encoding.md R92). -/
theorem h2Length_flip (b : Byte) {bit : Nat} (h6 : 6 ≤ bit) (h8 : bit < 8) :
    h2Length (b ^^^ (1#8 <<< bit)) = h2Length b := by
  have hzero : ∀ bit < 8, 6 ≤ bit → h2Length (1#8 <<< bit) = 0#8 := by decide
  rw [h2Length_xor, hzero bit h8 h6, BitVec.xor_zero]

/-- A flip of bit 6 or 7 changes the sum of the two codes. -/
theorem h2_codes_flip_ne (b : Byte) {bit : Nat} (h6 : 6 ≤ bit) (h8 : bit < 8) :
    BitVec.ofNat 8 (h2Io (b ^^^ (1#8 <<< bit))).code + BitVec.ofNat 8 (h2Rw (b ^^^ (1#8 <<< bit))).code ≠
      BitVec.ofNat 8 (h2Io b).code + BitVec.ofNat 8 (h2Rw b).code := by
  obtain rfl | rfl : bit = 6 ∨ bit = 7 := by omega
  all_goals
    simp only [h2Io_eq, h2Rw_eq, BitVec.getLsbD_xor]
    cases b.getLsbD 6 <;> cases b.getLsbD 7 <;> decide

/-- Changing one data byte changes the sum. -/
theorem sum_modify_ne (f : Byte → Byte) (hf : ∀ b, f b ≠ b) {data : List Byte} {k : Nat}
    (hk : k < data.length) : (data.modify k f).sum ≠ data.sum := by
  induction data generalizing k with
  | nil => exact absurd hk (Nat.not_lt_zero k)
  | cons b data ih =>
    cases k with
    | zero =>
      rw [List.modify_zero_cons, List.sum_cons, List.sum_cons]
      exact fun h => hf b ((BitVec.add_left_inj _).1 h)
    | succ k =>
      rw [List.modify_succ_cons, List.sum_cons, List.sum_cons]
      exact fun h => ih (Nat.lt_of_succ_lt_succ hk) ((BitVec.add_right_inj _).1 h)

/-- A buffer of exactly a frame's size whose checksum byte is not its fields' sum. -/
theorem decode_exact_mismatch (x : Excess) {h1 h2 c : Byte} {data : List Byte}
    (hlen : data.length = (h2Length h2).toNat)
    (hc : checksum (h1Version h1) (h1Pin h1) (h2Io h2) (h2Rw h2) (h2Length h2) data ≠ c) :
    decode x (stx :: h1 :: h2 :: (data ++ [c, etx])) = .err .checksumMismatch := by
  have hsize : (data ++ [c, etx]).length + 3 = 5 + (h2Length h2).toNat := by
    simp [hlen]
    omega
  rw [decode_of_markers _ _ _ _ (by simp) (by simp), hsize]
  refine decodeBody_mismatch (c := c) (rest := [etx]) (Nat.le_refl _) (.inr rfl) ?_ ?_
  · rw [← hlen, List.drop_left]
  · rwa [← hlen, List.take_left]

/-- A flip from offset 3 on leaves the marker and the header bytes. -/
theorem flipBit_body (h0 h1 h2 : Byte) (body : List Byte) (k bit : Nat) :
    Machine.flipBit (h0 :: h1 :: h2 :: body) (3 + k) bit =
      h0 :: h1 :: h2 :: Machine.flipBit body k bit := by
  rw [Nat.add_comm]; rfl

theorem modify_append_left (f : Byte → Byte) {xs : List Byte} (ys : List Byte) {k : Nat}
    (h : k < xs.length) : (xs ++ ys).modify k f = xs.modify k f ++ ys := by
  induction xs generalizing k with
  | nil => exact absurd h (Nat.not_lt_zero k)
  | cons x xs ih =>
    cases k with
    | zero => rfl
    | succ k => exact congrArg (x :: ·) (ih (Nat.lt_of_succ_lt_succ h))

theorem modify_append_length (f : Byte → Byte) (xs : List Byte) (y : Byte) (ys : List Byte) :
    (xs ++ y :: ys).modify xs.length f = xs ++ f y :: ys := by
  induction xs with
  | nil => rfl
  | cons x xs ih => exact congrArg (x :: ·) ih

/-- Settles O11: the flip changes a summand of the fields' sum (`h1_sum_flip_ne`, `h2_codes_flip_ne`,
`sum_modify_ne`) or the checksum byte, and nothing else (`decode_exact_mismatch`). -/
theorem singleBitFlipOutsideLengthIsCaught : Obligations.SingleBitFlipOutsideLengthIsCaught := by
  intro x m offset bit hwf hbit hoffset
  obtain ⟨hpin, hver, hlen, hdata, -⟩ := m.wf_iff.1 hwf
  obtain ⟨hv, hp⟩ := h1_packH1 hver hpin
  obtain ⟨hio, hrw, hl⟩ := h2_packH2 m.io m.rw hlen
  have hflip : ∀ b : Byte, b ^^^ (1#8 <<< bit) ≠ b := fun b =>
    xor_ne_self (one_shiftLeft_ne_zero bit hbit)
  have hsum : m.sum = checksum (h1Version (packH1 m.version m.pin)) (h1Pin (packH1 m.version m.pin))
      (h2Io (packH2 m.io m.rw m.length)) (h2Rw (packH2 m.io m.rw m.length))
      (h2Length (packH2 m.io m.rw m.length)) m.data := by
    rw [hv, hp, hio, hrw, hl]; rfl
  rw [← hl] at hdata hoffset
  rw [frameBytes_eq]
  generalize packH1 m.version m.pin = h1 at hsum hdata hoffset ⊢
  generalize packH2 m.io m.rw m.length = h2 at hsum hdata hoffset ⊢
  rw [checksum_eq_add] at hsum
  obtain rfl | ⟨rfl, h6⟩ | ⟨hlo, hhi⟩ := hoffset
  case inl =>
    refine decode_exact_mismatch x (h1 := h1 ^^^ (1#8 <<< bit)) hdata fun h => ?_
    rw [hsum, checksum_eq_add] at h
    simp only [BitVec.add_left_inj] at h
    exact h1_sum_flip_ne h1 hbit h
  case inr.inl =>
    have hlen' := h2Length_flip h2 h6 hbit
    refine decode_exact_mismatch x (h2 := h2 ^^^ (1#8 <<< bit)) (hlen' ▸ hdata) fun h => ?_
    rw [hsum, checksum_eq_add, hlen'] at h
    simp only [BitVec.add_left_inj] at h
    rw [BitVec.add_assoc (_ + _), BitVec.add_assoc (_ + _), BitVec.add_right_inj] at h
    exact h2_codes_flip_ne h2 h6 hbit h
  case inr.inr =>
    obtain ⟨k, rfl⟩ := Nat.exists_eq_add_of_le hlo
    rw [flipBit_body, Machine.flipBit]
    by_cases hk : k < m.data.length
    · rw [modify_append_left _ _ hk]
      refine decode_exact_mismatch x ((List.length_modify ..).trans hdata) fun h => ?_
      rw [hsum, checksum_eq_add] at h
      exact sum_modify_ne _ hflip hk ((BitVec.add_right_inj _).1 h)
    · obtain rfl : k = m.data.length := by omega
      rw [modify_append_length]
      refine decode_exact_mismatch x hdata fun h => hflip m.sum ?_
      rw [← h, hsum, checksum_eq_add]

end Sys2Proof
end

section
/-!
The rows of the opcode table (30_encoding.md R98 to R100). A mask of two bytes looks at header byte 2 and
the first data byte separately (`commandKey_and_eq_iff`), so each row says which command it selects.
-/

namespace Sys2Proof

/-! ### A command key under a mask -/

/-- A two-byte mask of three bytes in a row keeps nothing of the first. -/
theorem and_of_three_bytes (x y z a b : Byte) :
    (x.toNat <<< 16 ||| y.toNat <<< 8 ||| z.toNat) &&& (a.toNat <<< 8 ||| b.toNat) =
      (y &&& a).toNat <<< 8 ||| (z &&& b).toNat := by
  apply Nat.eq_of_testBit_eq
  intro i
  have hhigh : ∀ w : Byte, 16 ≤ i → w.getLsbD (i - 8) = false :=
    fun w h => BitVec.getLsbD_of_ge w _ (by omega)
  simp only [Nat.testBit_and, Nat.testBit_or, Nat.testBit_shiftLeft, BitVec.testBit_toNat,
    BitVec.getLsbD_and]
  by_cases h8 : 8 ≤ i
  · by_cases h16 : 16 ≤ i
    · simp [h8, h16, hhigh]
    · simp [h8, h16]
  · have h16 : ¬ 16 ≤ i := by omega
    simp [h8, h16]

/-- Two bytes in a row are equal exactly when both are. -/
theorem two_bytes_eq_iff (a b c d : Byte) :
    a.toNat <<< 8 ||| b.toNat = c.toNat <<< 8 ||| d.toNat ↔ a = c ∧ b = d := by
  have hb := b.isLt
  have hd := d.isLt
  rw [← Nat.shiftLeft_add_eq_or_of_lt hb, ← Nat.shiftLeft_add_eq_or_of_lt hd, Nat.shiftLeft_eq,
    Nat.shiftLeft_eq, ← BitVec.toNat_inj, ← BitVec.toNat_inj]
  omega

theorem commandKey_and_eq_iff (m : Message) (a b c d : Byte) :
    commandKey m &&& (a.toNat <<< 8 ||| b.toNat) = c.toNat <<< 8 ||| d.toNat ↔
      packH2 m.io m.rw m.length &&& a = c ∧ m.data.head?.getD 0#8 &&& b = d := by
  rw [commandKey, and_of_three_bytes, two_bytes_eq_iff]

/-! ### Header byte 2 under the rows' masks -/

/-- Bit 6 of header byte 2 is `rw` (30_encoding.md R92). -/
theorem packH2_and_rwBit (io : Io) (rw : Rw) (l : Byte) :
    packH2 io rw l &&& 0x40#8 = if rw = .write then 0x40#8 else 0#8 := by
  have hlen : h2Length l &&& 0x40#8 = 0#8 := by
    rw [h2Length, BitVec.and_assoc]
    exact BitVec.and_zero
  rw [packH2_eq_or, BitVec.and_or_distrib_right, hlen, BitVec.or_zero]
  cases io <;> cases rw <;> rfl

/-- Under the mask of `rw` and the length, header byte 2 of a Write without data is the `rw` bit. -/
theorem packH2_and_rwLength (io : Io) (rw : Rw) :
    packH2 io rw 0#8 &&& 0x7F#8 = 0x40#8 ↔ rw = .write := by
  cases io <;> cases rw <;> decide

/-! ### Each row -/

@[simp] theorem selects_read (m : Message) : Command.read.selects m = true ↔ m.rw = .read := by
  have hkey := commandKey_and_eq_iff m 0x40#8 0x00#8 0x00#8 0x00#8
  rw [packH2_and_rwBit, BitVec.and_zero] at hkey
  simp only [Command.selects, Command.constraint, Bool.and_true, decide_eq_true_eq]
  exact hkey.trans (by cases m.rw <;> simp)

/-- The key part of a row that asks for a Write with first byte `d`. -/
theorem commandKey_write_iff (m : Message) (d : Byte) :
    commandKey m &&& 0x0040FF = 0x40 <<< 8 ||| d.toNat ↔
      m.rw = .write ∧ m.data.head?.getD 0#8 = d := by
  have hkey := commandKey_and_eq_iff m 0x40#8 0xFF#8 0x40#8 d
  rw [packH2_and_rwBit, show (0xFF#8 : Byte) = BitVec.allOnes 8 from rfl, BitVec.and_allOnes] at hkey
  exact hkey.trans (by cases m.rw <;> simp)

@[simp] theorem selects_writeOn (m : Message) :
    Command.writeOn.selects m = true ↔
      (m.rw = .write ∧ m.data.head?.getD 0#8 = cmdOn) ∧ 1 ≤ m.length.toNat := by
  simp only [Command.selects, Command.constraint, Bool.and_eq_true, decide_eq_true_eq]
  exact and_congr_left fun _ => commandKey_write_iff m cmdOn

@[simp] theorem selects_writeOff (m : Message) :
    Command.writeOff.selects m = true ↔
      (m.rw = .write ∧ m.data.head?.getD 0#8 = cmdOff) ∧ 1 ≤ m.length.toNat := by
  simp only [Command.selects, Command.constraint, Bool.and_eq_true, decide_eq_true_eq]
  exact and_congr_left fun _ => commandKey_write_iff m cmdOff

@[simp] theorem selects_writeInvalid (m : Message) :
    Command.writeInvalid.selects m = true ↔
      m.rw = .write ∧ 1 ≤ m.length.toNat ∧ m.data.head? ≠ some cmdOn ∧ m.data.head? ≠ some cmdOff := by
  have hkey := commandKey_and_eq_iff m 0x40#8 0x00#8 0x40#8 0x00#8
  rw [packH2_and_rwBit, BitVec.and_zero] at hkey
  have hrw : commandKey m &&& 0x004000 = 0x004000 ↔ m.rw = .write :=
    hkey.trans (by cases m.rw <;> simp)
  simp [Command.selects, Command.constraint, Command.mask, Command.matchWord, hrw, and_assoc]

@[simp] theorem selects_writeNodata (m : Message) :
    Command.writeNodata.selects m = true ↔ m.rw = .write ∧ m.length = 0#8 := by
  have hkey := commandKey_and_eq_iff m 0x7F#8 0x00#8 0x40#8 0x00#8
  rw [BitVec.and_zero] at hkey
  have hlen : m.length.toNat = 0 ↔ m.length = 0#8 := BitVec.toNat_inj (y := 0#8)
  simp only [Command.selects, Command.constraint, Bool.and_eq_true, decide_eq_true_eq, hlen]
  refine and_congr_left fun h => hkey.trans ?_
  rw [h, packH2_and_rwLength]
  exact and_iff_left rfl

/-! ### The command of a Message, by its `rw` and its data -/

theorem Message.length_eq_zero_iff {m : Message} (h : m.wf = true) : m.length = 0#8 ↔ m.data = [] := by
  obtain ⟨-, -, -, hdata, -⟩ := m.wf_iff.1 h
  rw [← List.length_eq_zero_iff, hdata, ← BitVec.toNat_inj]
  rfl

theorem command_of_read {m : Message} (hrw : m.rw = .read) : m.command = .read := by
  simp [Message.command, hrw]

theorem command_of_nodata {m : Message} (hrw : m.rw = .write) (hlen : m.length = 0#8) :
    m.command = .writeNodata := by
  simp [Message.command, hrw, hlen]

/-- The first data byte of a Write selects its command (30_encoding.md R98). -/
theorem command_of_data {m : Message} {d0 : Byte} {rest : List Byte} (hrw : m.rw = .write)
    (hlen : m.length ≠ 0#8) (hd : m.data = d0 :: rest) :
    m.command = if d0 = cmdOn then .writeOn else if d0 = cmdOff then .writeOff else .writeInvalid := by
  simp [Message.command, hrw, hlen, hd]

theorem ofMessage_command {m : Message} (h : m.wf = true) :
    (Instr.ofMessage m).command = m.command := by
  have hlen := Message.length_eq_zero_iff h
  cases hrw : m.rw with
  | read => simp [Instr.ofMessage, hrw, Instr.command, command_of_read hrw]
  | write =>
    cases hd : m.data with
    | nil => simp [Instr.ofMessage, hrw, hd, Instr.command, command_of_nodata hrw (hlen.2 hd)]
    | cons d0 rest =>
      have hne : m.length ≠ 0#8 := fun h0 => by simp [hlen.1 h0] at hd
      rw [command_of_data hrw hne hd]
      simp only [Instr.ofMessage, hrw, hd]
      split
      · rfl
      · split <;> rfl

theorem command_selects_iff {m : Message} (h : m.wf = true) (c : Command) :
    c.selects m = true ↔ c = m.command := by
  have hlen := Message.length_eq_zero_iff h
  have hpos : 1 ≤ m.length.toNat ↔ m.length ≠ 0#8 := by
    rw [Nat.one_le_iff_ne_zero, ne_eq, ne_eq, ← BitVec.toNat_inj]
    rfl
  have hcodes : cmdOn ≠ cmdOff := by decide
  cases hrw : m.rw with
  | read => cases c <;> simp [command_of_read hrw, hrw]
  | write =>
    cases hd : m.data with
    | nil => cases c <;> simp [command_of_nodata hrw (hlen.2 hd), hrw, hlen.2 hd]
    | cons d0 rest =>
      have hne : m.length ≠ 0#8 := fun h0 => by simp [hlen.1 h0] at hd
      rw [command_of_data hrw hne hd]
      by_cases hon : d0 = cmdOn
      · cases c <;> simp [hrw, hpos, hd, hne, hon, hcodes]
      · by_cases hoff : d0 = cmdOff
        · cases c <;> simp [hrw, hpos, hd, hne, hoff, hcodes.symm]
        · cases c <;> simp [hrw, hpos, hd, hne, hon, hoff]

/-- Settles O14: the rows one by one (`command_selects_iff`), and the decoder's command
(`ofMessage_command`). -/
theorem requestMatchesExactlyItsRow : Obligations.RequestMatchesExactlyItsRow :=
  fun _ h => ⟨command_selects_iff h, ofMessage_command h⟩

end Sys2Proof
end

section
/-!
The Write commands (42_dispatch.md R202 to R207), and what every command leaves unchanged. An event that
drives a pin's level (`Drives`) stands for `SetHigh` and `SetLow`, so WRITE_ON and WRITE_OFF are one
argument. What a list of events leaves of the GPIO copy is what each of them leaves
(`foldl_pinsAfter_keeps`), also where a reset cuts the list.
-/

namespace Sys2Proof.Machine

/-- The event sets the driven level of one pin and nothing else of the GPIO copy (20_memory.md R65). -/
def Drives (p : Pin) (level : PinLevel) (e : Event) : Prop :=
  ∀ pins, pinsAfter e pins = setPin pins p { pinAt pins p with lvl := level }

theorem setHigh_drives (p : Pin) : Drives p .high (.setHigh p) := fun _ => rfl

theorem setLow_drives (p : Pin) : Drives p .low (.setLow p) := fun _ => rfl

/-! ### Completion, with no reset pending -/

/-- The optional configure and the drive, with no reset pending (42_dispatch.md R205). -/
theorem emit_configureForWrite_clear {s : State} (hr : resetNext s = false) {p : Pin}
    {level : PinLevel} {e : Event} (he : Drives p level e) (io : Io) :
    emit e (configureForWrite p io s) = { s with
      pins := setPin s.pins p
        { dir := if s.cfg.writeConfigure then dirOf io else (pinAt s.pins p).dir, lvl := level },
      trace := s.trace ++ (if s.cfg.writeConfigure then [.configure p io] else []) ++ [e] } := by
  rw [configureForWrite_clear hr]
  split
  next =>
    rw [emit_clear (by simpa using hr), record, he]
    simp [record, pinsAfter]
  next =>
    rw [emit_clear hr, record, he]
    simp

/-- A write that drives a pin and answers `ack`, with no reset pending. -/
theorem respond_after_drive_clear {s : State} (hs : s.phase = .complete) (hr : resetNext s = false)
    {p : Pin} {level : PinLevel} {e : Event} (he : Drives p level e) (v : Version) (io : Io)
    {ack : List Byte} (hack : ack.length ≤ 63) :
    respond v p io .write ack (emit e (configureForWrite p io s)) = .next { s with
      resp := some (respFor v p io .write ack),
      txDraws := s.txDraws.tail, drawCount := s.drawCount + 1,
      pins := setPin s.pins p
        { dir := if s.cfg.writeConfigure then dirOf io else (pinAt s.pins p).dir, lvl := level },
      trace := s.trace ++ (if s.cfg.writeConfigure then [.configure p io] else []) ++
        [e, .txWrite (frameBytes (respFor v p io .write ack)) (nextReply (5 + ack.length) s)] ++
        failSignal (nextReply (5 + ack.length) s) } := by
  have hdrive := emit_configureForWrite_clear hr he io
  have hreset : resetNext (emit e (configureForWrite p io s)) = false := by rw [hdrive]; exact hr
  rw [respond_clear (by simpa using hs) hreset v p io .write hack, hdrive]
  simp [nextReply]

/-- Settles O18: the pin is driven high and the acknowledgement sent (`respond_after_drive_clear`), in a
frame of the stated bytes (`frameBytes_respFor`). -/
theorem writeOnDrivesHighAndConfirms : Obligations.WriteOnDrivesHighAndConfirms := by
  intro s v p io rest hs hr hc ack sum bytes reply
  have hack : ack.length ≤ 63 := (configOk_acks hc).1
  have hframe : frameBytes (respFor v p io .write ack) = bytes := frameBytes_respFor v p io .write hack
  have hresp := respFor_eq v p io .write hack
  rw [exec_writeOn, execWriteOn, respond_after_drive_clear hs hr (setHigh_drives p) v io hack, hframe,
    hresp]
  rfl

/-- Settles O19: as WRITE_ON, with the pin driven low. -/
theorem writeOffDrivesLowAndConfirms : Obligations.WriteOffDrivesLowAndConfirms := by
  intro s v p io rest hs hr hc ack sum bytes reply
  have hack : ack.length ≤ 63 := (configOk_acks hc).2
  have hframe : frameBytes (respFor v p io .write ack) = bytes := frameBytes_respFor v p io .write hack
  have hresp := respFor_eq v p io .write hack
  rw [exec_writeOff, execWriteOff, respond_after_drive_clear hs hr (setLow_drives p) v io hack, hframe,
    hresp]
  rfl

/-- Settles O20: the signal, then the answer (`respond_clear`) in a frame of the stated bytes. -/
theorem writeInvalidSignalsAndAnswers : Obligations.WriteInvalidSignalsAndAnswers := by
  intro s v p io d0 rest hs hr text sum bytes reply
  have hlen : text.length ≤ 63 := by decide
  have hframe : frameBytes (respFor v p io .write text) = bytes := frameBytes_respFor v p io .write hlen
  have hresp := respFor_eq v p io .write hlen
  refine ⟨_, .refl _, ?_⟩
  rw [exec_writeInvalid, execWriteInvalid, emit_clear hr,
    show txtInvalid = text from rfl, respond_clear (by simpa using hs) (by simpa using hr) v p io
      .write hlen, hframe, hresp, record_trace, List.append_assoc, List.append_assoc]
  rfl

/-- Settles O21: the answer alone (`respond_clear`), in a frame of the stated bytes. -/
theorem writeNodataAnswersOnly : Obligations.WriteNodataAnswersOnly := by
  intro s v p io hs hr text sum bytes reply
  have hlen : text.length ≤ 63 := by decide
  have hframe : frameBytes (respFor v p io .write text) = bytes := frameBytes_respFor v p io .write hlen
  have hresp := respFor_eq v p io .write hlen
  rw [exec_writeNodata, execWriteNodata, show txtNodata = text from rfl,
    respond_clear hs hr v p io .write hlen, hframe, hresp]
  rfl

/-! ### What a list of events leaves of the GPIO copy -/

theorem mem_of_mem_cut {b : Option Nat} {es : List Event} {e : Event} (h : e ∈ cut b es) : e ∈ es := by
  cases b with
  | none => exact h
  | some k => exact List.mem_of_mem_take h

/-- What each event leaves of the copy, all of them leave. -/
theorem foldl_pinsAfter_keeps {α : Type} (f : Vector PinState 32 → α) {es : List Event}
    (h : ∀ e ∈ es, ∀ pins, f (pinsAfter e pins) = f pins) (pins : Vector PinState 32) :
    f (es.foldl (fun ps e => pinsAfter e ps) pins) = f pins := by
  induction es generalizing pins with
  | nil => rfl
  | cons e es ih =>
    rw [List.foldl_cons, ih fun e' he' => h e' (List.mem_cons_of_mem e he')]
    exact h e List.mem_cons_self pins

/-- The same for events a reset may cut. -/
theorem Emits.pins_keep {α : Type} {s t : State} {es : List Event} (h : Emits s t es)
    (f : Vector PinState 32 → α) (hes : ∀ e ∈ es, ∀ pins, f (pinsAfter e pins) = f pins) :
    f t.pins = f s.pins := by
  rw [h.pins]
  exact foldl_pinsAfter_keeps f (fun e he => hes e (mem_of_mem_cut he)) s.pins

theorem pinsAfter_of_not_isGpio {e : Event} (h : e.isGpio = false) (pins : Vector PinState 32) :
    pinsAfter e pins = pins := by
  cases e with
  | configure p io => cases h
  | setHigh p => cases h
  | setLow p => cases h
  | _ => rfl

theorem Emits.pins_eq {s t : State} {es : List Event} (h : Emits s t es)
    (hes : ∀ e ∈ es, e.isGpio = false) : t.pins = s.pins :=
  h.pins_keep id fun e he => pinsAfter_of_not_isGpio (hes e he)

/-- A frame and the signal of its failure are no GPIO events. -/
theorem answer_not_isGpio (bytes : List Byte) (reply : TxReply) :
    ∀ e ∈ Event.txWrite bytes reply :: failSignal reply, e.isGpio = false := by
  cases reply <;> simp [failSignal, Event.isGpio]

/-- A processing leaves of the copy what the events before its answer leave. -/
theorem Emits.pins_keep_answer {α : Type} {s t : State} {pre : List Event} {bytes : List Byte}
    {reply : TxReply} (h : Emits s t (pre ++ .txWrite bytes reply :: failSignal reply))
    (f : Vector PinState 32 → α) (hpre : ∀ e ∈ pre, ∀ pins, f (pinsAfter e pins) = f pins) :
    f t.pins = f s.pins := by
  refine h.pins_keep f fun e he pins => ?_
  obtain he | he := List.mem_append.1 he
  · exact hpre e he pins
  · rw [pinsAfter_of_not_isGpio (answer_not_isGpio bytes reply e he)]

/-! ### The frame of the GPIO commands -/

theorem respond_levelDraws {s t : State} {v : Version} {p : Pin} {io : Io} {rw : Rw}
    {payload : List Byte} (h : respond v p io rw payload s = .next t) : t.levelDraws = s.levelDraws := by
  obtain ⟨-, bytes, -, rfl⟩ := respond_next h
  exact transmit_levelDraws ..

/-- What READ leaves of the copy: the other pins, and the driven level of its own. -/
theorem execRead_pins {s t : State} {v : Version} {p : Pin} {io : Io} {data : List Byte}
    (h : execRead v p io data s = .next t) :
    (∀ q, q ≠ p → pinAt t.pins q = pinAt s.pins q) ∧ (pinAt t.pins p).lvl = (pinAt s.pins p).lvl := by
  obtain ⟨level, bytes, reply, he⟩ := execRead_emits (data := data) h
  have hpre : ∀ e ∈ [Event.configure p io, .read p level],
      e = .configure p io ∨ e = .read p level := fun e he => by simpa using he
  refine ⟨fun q hq => he.pins_keep_answer (pinAt · q) fun e hmem pins => ?_,
    he.pins_keep_answer (fun pins => (pinAt pins p).lvl) fun e hmem pins => ?_⟩
  · obtain rfl | rfl := hpre e hmem
    · exact pinAt_setPin_ne pins _ hq
    · rfl
  · obtain rfl | rfl := hpre e hmem
    · simp [pinsAfter]
    · rfl

/-- The events of a driving write before its answer. -/
theorem mem_configure_append {c : Bool} {p : Pin} {io : Io} {e f : Event}
    (h : f ∈ (if c then [.configure p io] else []) ++ [e]) : f = .configure p io ∨ f = e := by
  cases c with
  | true => simpa using h
  | false => exact .inr (by simpa using h)

/-- What a driving write leaves of the copy and the draws: the other pins, its own pin's direction when
it does not configure, and the level draws. -/
theorem drive_frame {s t : State} {v : Version} {p : Pin} {io : Io} {ack bytes : List Byte}
    {level : PinLevel} {e : Event} {reply : TxReply} (hd : Drives p level e)
    (h : respond v p io .write ack (emit e (configureForWrite p io s)) = .next t)
    (he : Emits s t ((if s.cfg.writeConfigure then [.configure p io] else []) ++ [e] ++
      .txWrite bytes reply :: failSignal reply)) :
    (∀ q, q ≠ p → pinAt t.pins q = pinAt s.pins q) ∧ t.levelDraws = s.levelDraws ∧
      (s.cfg.writeConfigure = false → (pinAt t.pins p).dir = (pinAt s.pins p).dir) := by
  refine ⟨fun q hq => he.pins_keep_answer (pinAt · q) fun f hmem pins => ?_, ?_, fun hcfg => ?_⟩
  · obtain rfl | rfl := mem_configure_append hmem
    · exact pinAt_setPin_ne pins _ hq
    · rw [hd pins]
      exact pinAt_setPin_ne pins _ hq
  · rw [respond_levelDraws h, emit_levelDraws, configureForWrite_levelDraws]
  · refine he.pins_keep_answer (fun pins => (pinAt pins p).dir) fun f hmem pins => ?_
    obtain rfl : f = e := by simpa [hcfg] using hmem
    rw [hd pins, pinAt_setPin_self]

/-- Settles O22: the events of READ (`execRead_pins`) and of the two driving writes (`drive_frame`)
touch one pin; what else stays is what `Emits` says. -/
theorem gpioCommandsTouchOnlyTheirPin : Obligations.GpioCommandsTouchOnlyTheirPin := by
  intro s t v p io bytes i hi h
  obtain ⟨es, he⟩ := exec_emits h
  have hrest : t.cfg = s.cfg ∧ t.phase = s.phase ∧ t.buf = s.buf ∧ t.outcome = s.outcome ∧
      ∃ n, t.inputs = countDown n s.inputs := ⟨he.cfg, he.phase, he.buf, he.outcome, _, he.inputs⟩
  obtain rfl | rfl | rfl := hi
  · obtain ⟨hother, hlvl⟩ := execRead_pins (data := bytes) h
    exact ⟨hother, fun _ => hlvl, fun hne => absurd rfl hne, hrest⟩
  · obtain ⟨_, _, hon⟩ := execWriteOn_emits (rest := bytes) h
    obtain ⟨hother, hwrite⟩ := drive_frame (setHigh_drives p) h hon
    exact ⟨hother, (fun heq => nomatch heq), fun _ => hwrite, hrest⟩
  · obtain ⟨_, _, hoff⟩ := execWriteOff_emits (rest := bytes) h
    obtain ⟨hother, hwrite⟩ := drive_frame (setLow_drives p) h hoff
    exact ⟨hother, (fun heq => nomatch heq), fun _ => hwrite, hrest⟩

/-! ### The frame of the rejected writes and of a decode error -/

/-- Events without a GPIO event: neither the copy nor, in the trace, the GPIO is touched. -/
theorem Emits.no_gpio {s t : State} {es : List Event} (h : Emits s t es)
    (hes : ∀ e ∈ es, e.isGpio = false) :
    t.pins = s.pins ∧ ∃ fs, t.trace = s.trace ++ fs ∧ ∀ e ∈ fs, e.isGpio = false :=
  ⟨h.pins_eq hes, _, h.trace, fun e he => hes e (mem_of_mem_cut he)⟩

/-- Settles O23: the two rejected writes emit signals and a frame only. -/
theorem rejectedWritesTouchNoPin : Obligations.RejectedWritesTouchNoPin := by
  intro s t v p io d0 rest i hi h
  have hevents : ∃ es, Emits s t es ∧ (∀ e ∈ es, e.isGpio = false) ∧ t.levelDraws = s.levelDraws := by
    obtain rfl | rfl := hi
    · obtain ⟨bytes, reply, he⟩ := execWriteInvalid_emits (d0 := d0) (rest := rest) h
      refine ⟨_, he, List.forall_mem_cons.2 ⟨rfl, answer_not_isGpio bytes reply⟩, ?_⟩
      exact (respond_levelDraws h).trans (emit_levelDraws ..)
    · obtain ⟨bytes, reply, he⟩ := execWriteNodata_emits h
      exact ⟨_, he, answer_not_isGpio bytes reply, respond_levelDraws h⟩
  obtain ⟨es, he, hes, hdraws⟩ := hevents
  obtain ⟨hpins, htrace⟩ := he.no_gpio hes
  exact ⟨hpins, hdraws, htrace, he.cfg, he.phase, he.buf, he.outcome, _, he.inputs⟩

end Sys2Proof.Machine
end

section
/-!
The scanner: one received event, and runs over received bytes (41_framing.md R162 to R184). A byte leaves
an unfinished candidate open (`Waits`) or completes it (`Ends`); a run over a candidate that waits until
its last byte ends in Complete with exactly its bytes (`runSteps_candidate`). The guarantees of the two
framing modes are this run for different candidates.
-/

namespace Sys2Proof.Machine

/-! ### One event outside Complete -/

/-- The state after receiving `bytes`, with `rest` still to come; the scanner is in `phase` with `buf`. -/
def State.scan (s : State) (bytes : List Byte) (rest : List Input) (phase : Phase) (buf : List Byte) :
    State :=
  { s with inputs := rest, trace := s.trace ++ rxEvents bytes, phase := phase, buf := buf }

theorem scan_nil (s : State) : s.scan [] s.inputs s.phase s.buf = s := by
  simp [State.scan, rxEvents]

theorem scan_scan (s : State) (xs ys : List Byte) (before rest : List Input) (p q : Phase)
    (buf buf' : List Byte) :
    (s.scan xs before p buf).scan ys rest q buf' = s.scan (xs ++ ys) rest q buf' := by
  simp [State.scan, rxEvents]

/-- Outside Complete a step takes the byte next and reacts to it. -/
theorem step_scan {s : State} {b : Byte} {rest : List Input} (hs : s.phase ≠ .complete)
    (hi : s.inputs = .rxByte b :: rest) :
    step s = .next (onByte b (s.scan [b] rest s.phase s.buf)) :=
  step_rxByte hs hi

theorem step_scan_scan (s : State) {bytes buf : List Byte} {b : Byte} {rest : List Input} {p : Phase}
    (hp : p ≠ .complete) :
    step (s.scan bytes (.rxByte b :: rest) p buf) =
      .next (onByte b (s.scan (bytes ++ [b]) rest p buf)) := by
  rw [← scan_scan s bytes [b] (.rxByte b :: rest) rest p p buf buf]
  exact step_scan hp rfl

theorem step_scanning_stx {s : State} {rest : List Input} (hs : s.phase = .scanning)
    (hi : s.inputs = .rxByte stx :: rest) :
    step s = .next (s.scan [stx] rest .accumulating [stx]) := by
  have hbyte := onByte_scanning (s := s.scan [stx] rest s.phase s.buf) hs stx
  rw [step_scan (by simp [hs]) hi, hbyte, onByteScanning_stx]
  rfl

theorem step_scanning_other {s : State} {b : Byte} {rest : List Input} (hs : s.phase = .scanning)
    (hi : s.inputs = .rxByte b :: rest) (hb : b ≠ stx) :
    step s = .next (s.scan [b] rest .scanning s.buf) := by
  have hbyte := onByte_scanning (s := s.scan [b] rest s.phase s.buf) hs b
  rw [step_scan (by simp [hs]) hi, hbyte, onByteScanning_other hb, hs]

/-- Settles O25: the start marker opens a candidate (`step_scanning_stx`), another byte is dropped
(`step_scanning_other`). -/
theorem scanningOpensOnStartMarkerOnly : Obligations.ScanningOpensOnStartMarkerOnly := by
  intro s b rest hs hi
  by_cases hb : b = 0x02#8
  · subst hb
    exact step_scanning_stx hs hi
  · rw [if_neg hb, if_neg hb]
    exact step_scanning_other hs hi hb

/-- Settles O27: in SENTINEL mode the byte is appended, then the end test and the cap decide
(`endTestSentinel`). -/
theorem sentinelFrameEndsAtEndMarkerOrCap : Obligations.SentinelFrameEndsAtEndMarkerOrCap := by
  intro s b rest hs hf hi buf
  have hbyte := onByte_sentinel (s := s.scan [b] rest s.phase s.buf) hs hf b
  rw [step_scan (by simp [hs]) hi, hbyte]
  refine ⟨fun hb => ?_, fun hb hcap => ?_, fun cap hb hc hge => ?_⟩
  · obtain rfl : b = etx := hb
    rw [endTestSentinel_etx]
    rfl
  · rw [endTestSentinel_wait hb hcap]
    rfl
  · have hfull := endTestSentinel_cap (s := appendByte b (s.scan [b] rest s.phase s.buf)) hb hc hge
    rw [hfull]
    simp [abandon, toScanning, record, pinsAfter, State.scan, appendByte, rxEvents]

/-- Settles O28: outside Complete the timeout is recorded and reacted to (`takeInput_cons`). -/
theorem idleTimeoutAbandonsTheCandidate : Obligations.IdleTimeoutAbandonsTheCandidate := by
  intro s rest hs hi
  rw [step_of_not_complete hs, takeInput_cons hi]
  refine ⟨fun ⟨hcfg, hp⟩ => ?_, fun h => ?_⟩
  · have htaken := onIdleTimeout_taken (s := record .idleTimeout { s with inputs := rest }) hcfg hp
    rw [react, Input.event, htaken]
    simp [abandon, toScanning, record, pinsAfter]
  · have hp : s.cfg.idleTimeout = false ∨ s.phase ≠ .accumulating := h.imp id fun hp => by simp [hp]
    have hignored := onIdleTimeout_ignored (s := record .idleTimeout { s with inputs := rest }) hp
    rw [react, Input.event, hignored]
    rfl

/-- Settles O29: outside Complete the reset is recorded and returns to Scanning (`onReset`). -/
theorem resetReturnsToScanningSilently : Obligations.ResetReturnsToScanningSilently := by
  intro s k rest hs hi
  rw [step_of_not_complete hs, takeInput_cons hi]
  rfl

/-! ### Unfinished and finished candidates -/

/-- The end test of the framing mode on a buffer (41_framing.md R167, R169). -/
def Ends (c : Config) (buf : List Byte) : Prop :=
  match c.framing with
  | .lengthAware => expectedLength buf = some buf.length
  | .sentinel    => buf.getLast? = some etx

/-- The buffer stays an unfinished candidate: the end test fails and the SENTINEL cap is not reached
(41_framing.md R170). -/
def Waits (c : Config) (buf : List Byte) : Prop :=
  ¬ Ends c buf ∧ (c.framing = .sentinel → ∀ cap, c.accCap = some cap → buf.length < cap)

theorem ends_lengthAware {c : Config} (hf : c.framing = .lengthAware) (buf : List Byte) :
    Ends c buf ↔ expectedLength buf = some buf.length := by
  simp [Ends, hf]

theorem ends_sentinel {c : Config} (hf : c.framing = .sentinel) (buf : List Byte) :
    Ends c buf ↔ buf.getLast? = some etx := by
  simp [Ends, hf]

theorem ends_sentinel_append {c : Config} (hf : c.framing = .sentinel) (buf : List Byte) (b : Byte) :
    Ends c (buf ++ [b]) ↔ b = etx := by
  rw [ends_sentinel hf, List.getLast?_concat, Option.some.injEq]

theorem onByte_of_waits {s : State} {b : Byte} (hs : s.phase = .accumulating)
    (hw : Waits s.cfg (s.buf ++ [b])) : onByte b s = appendByte b s := by
  obtain ⟨hend, hcap⟩ := hw
  cases hf : s.cfg.framing with
  | lengthAware =>
    rw [onByte_lengthAware hs hf, endTestLengthAware_wait (mt (ends_lengthAware hf _).2 hend)]
  | sentinel =>
    rw [onByte_sentinel hs hf,
      endTestSentinel_wait (mt (ends_sentinel_append hf _ _).2 hend) (hcap hf)]

theorem onByte_of_ends {s : State} {b : Byte} (hs : s.phase = .accumulating)
    (he : Ends s.cfg (s.buf ++ [b])) : onByte b s = { appendByte b s with phase := .complete } := by
  cases hf : s.cfg.framing with
  | lengthAware =>
    have hdone := endTestLengthAware_done (s := appendByte b s) ((ends_lengthAware hf _).1 he)
    rw [onByte_lengthAware hs hf, hdone]
  | sentinel =>
    obtain rfl := (ends_sentinel_append hf _ _).1 he
    rw [onByte_sentinel hs hf, endTestSentinel_etx]

/-! ### Runs over received bytes -/

/-- Garbage without a start marker is dropped (41_framing.md R180). -/
theorem runSteps_garbage {s : State} {garbage : List Byte} {rest : List Input}
    (hs : s.phase = .scanning) (hg : stx ∉ garbage) (hi : s.inputs = rxAll garbage ++ rest) :
    runSteps garbage.length s = .next (s.scan garbage rest .scanning s.buf) := by
  induction garbage generalizing s with
  | nil =>
    have hrest : s.inputs = rest := hi
    rw [← hrest, ← hs, scan_nil]
    rfl
  | cons b garbage ih =>
    obtain ⟨hb, hg⟩ := List.ne_and_not_mem_of_not_mem_cons hg
    have hstep := step_scanning_other hs hi (Ne.symm hb)
    have hrun := ih (s := s.scan [b] (rxAll garbage ++ rest) .scanning s.buf) rfl hg rfl
    exact (runSteps_succ hstep _).trans (hrun.trans (congrArg Host.Outcome.next (scan_scan ..)))

/-- Bytes that leave the candidate open are appended (41_framing.md R163). -/
theorem runSteps_waits {s : State} {bytes : List Byte} {rest : List Input}
    (hs : s.phase = .accumulating) (hi : s.inputs = rxAll bytes ++ rest)
    (hw : ∀ pre, pre ≠ [] → pre <+: bytes → Waits s.cfg (s.buf ++ pre)) :
    runSteps bytes.length s = .next (s.scan bytes rest .accumulating (s.buf ++ bytes)) := by
  induction bytes generalizing s with
  | nil =>
    have hrest : s.inputs = rest := hi
    rw [← hrest, ← hs, List.append_nil, scan_nil]
    rfl
  | cons b bytes ih =>
    have hbyte := onByte_of_waits (s := s.scan [b] (rxAll bytes ++ rest) s.phase s.buf) hs
      (hw [b] (by simp) (by simp))
    have hstep : step s = .next (s.scan [b] (rxAll bytes ++ rest) .accumulating (s.buf ++ [b])) := by
      rw [step_scan (by simp [hs]) hi]
      exact congrArg Host.Outcome.next (hbyte.trans (by rw [hs]; rfl))
    have hrun := ih (s := s.scan [b] (rxAll bytes ++ rest) .accumulating (s.buf ++ [b])) rfl rfl
      fun pre hne hpre => by
        have hcons := hw (b :: pre) (by simp) (by simpa using hpre)
        rwa [List.append_cons] at hcons
    rw [List.length_cons, runSteps_succ hstep, hrun, scan_scan, List.append_cons s.buf b bytes]
    rfl

/-- From Scanning, a candidate that waits until its last byte and then ends is received in one step per
byte and is complete. -/
theorem runSteps_candidate {s : State} {mid : List Byte} {last : Byte} {rest : List Input}
    (hs : s.phase = .scanning) (hi : s.inputs = rxAll (stx :: mid ++ [last]) ++ rest)
    (hw : ∀ pre, pre ≠ [] → pre <+: mid → Waits s.cfg (stx :: pre))
    (he : Ends s.cfg (stx :: mid ++ [last])) :
    runSteps (mid.length + 2) s =
      .next (s.scan (stx :: mid ++ [last]) rest .complete (stx :: mid ++ [last])) := by
  have hi' : s.inputs = .rxByte stx :: (rxAll mid ++ (.rxByte last :: rest)) := by
    simp [hi, rxAll]
  have hopen := step_scanning_stx hs hi'
  have hmid := runSteps_waits
    (s := s.scan [stx] (rxAll mid ++ (.rxByte last :: rest)) .accumulating [stx]) rfl rfl hw
  rw [scan_scan] at hmid
  have hbyte := onByte_of_ends
    (s := s.scan (stx :: mid ++ [last]) rest .accumulating (stx :: mid)) rfl he
  have hlast : step (s.scan (stx :: mid) (.rxByte last :: rest) .accumulating (stx :: mid)) =
      .next (s.scan (stx :: mid ++ [last]) rest .complete (stx :: mid ++ [last])) :=
    (step_scan_scan s (by decide)).trans (congrArg Host.Outcome.next hbyte)
  calc runSteps (mid.length + 2) s
    _ = runSteps (mid.length + 1) _ := runSteps_succ hopen _
    _ = runSteps 1 _ := runSteps_add hmid 1
    _ = _ := runSteps_succ hlast 0

/-! ### What the two framing modes guarantee -/

/-- In LENGTH_AWARE mode a buffer of its own expected length waits until its last byte. -/
theorem waits_lengthAware {c : Config} (hf : c.framing = .lengthAware) {mid : List Byte} {last : Byte}
    (he : expectedLength (stx :: mid ++ [last]) = some (stx :: mid ++ [last]).length) :
    ∀ pre, pre ≠ [] → pre <+: mid → Waits c (stx :: pre) := by
  rintro pre - ⟨more, rfl⟩
  refine ⟨fun hend => ?_, fun h => by simp [hf] at h⟩
  have happ := expectedLength_append ((ends_lengthAware hf _).1 hend) (more ++ [last])
  rw [List.cons_append, ← List.append_assoc] at happ
  have hlen := Option.some.inj (he.symm.trans happ)
  simp at hlen

/-- In SENTINEL mode a candidate waits as long as it has no end marker and is below the cap. -/
theorem waits_sentinel {c : Config} {mid : List Byte} (hf : c.framing = .sentinel) (hm : etx ∉ mid)
    (hcap : ∀ cap, c.accCap = some cap → mid.length + 1 < cap) :
    ∀ pre, pre ≠ [] → pre <+: mid → Waits c (stx :: pre) := by
  rintro pre hne ⟨more, rfl⟩
  refine ⟨fun hend => ?_, fun _ cap hc => ?_⟩
  · rw [ends_sentinel hf, List.getLast?_cons_of_ne_nil hne] at hend
    exact hm (List.mem_append_left more (List.mem_of_getLast? hend))
  · have hlt := hcap cap hc
    simp at hlt ⊢
    omega

/-- A complete candidate that is a well-formed Message's frame is dispatched (41_framing.md R176). -/
theorem step_of_frame {s : State} (hs : s.phase = .complete) {m : Message} (hwf : m.wf = true)
    (hb : s.buf = frameBytes m) :
    step s = mapNext toScanning (exec (Instr.ofMessage m) { s with outcome := some (.ok m) }) :=
  step_of_decode_ok hs (hb ▸ decode_frameBytes _ hwf)

/-- A well-formed frame between its markers. -/
theorem exists_inner_bytes {m : Message} (hwf : m.wf = true) :
    ∃ mid, frameBytes m = stx :: mid ++ [etx] ∧ mid.length + 2 = 5 + m.length.toNat := by
  obtain ⟨-, -, -, hdata, -⟩ := m.wf_iff.1 hwf
  refine ⟨packH1 m.version m.pin :: packH2 m.io m.rw m.length :: (m.data ++ [m.sum]), ?_, ?_⟩
  · simp [frameBytes_eq]
  · simp [hdata]
    omega

theorem expectedLength_frameBytes {m : Message} (hwf : m.wf = true) :
    expectedLength (frameBytes m) = some (frameBytes m).length := by
  obtain ⟨-, -, hlen, hdata, -⟩ := m.wf_iff.1 hwf
  rw [frameBytes_length, hdata, Nat.add_comm, frameBytes_eq, expectedLength,
    (h2_packH2 m.io m.rw hlen).2.2]

/-- Settles O31: the garbage is dropped (`runSteps_garbage`), the frame is a candidate of its own
expected length (`runSteps_candidate`), and Decode reads it back (`step_of_frame`). -/
theorem lengthAwareServesFrameAfterGarbage : Obligations.LengthAwareServesFrameAfterGarbage := by
  intro s garbage m rest hs hb hf hg hwf hi t
  refine ⟨?_, step_of_frame rfl hwf rfl⟩
  obtain ⟨mid, hmid, hsize⟩ := exists_inner_bytes hwf
  have hgarbage := runSteps_garbage (rest := rxAll (frameBytes m) ++ rest) hs hg (by simp [hi, rxAll])
  have hend := expectedLength_frameBytes hwf
  rw [hmid] at hend
  have hframe := runSteps_candidate
    (s := s.scan garbage (rxAll (stx :: mid ++ [etx]) ++ rest) .scanning s.buf) rfl rfl
    (waits_lengthAware hf hend) ((ends_lengthAware hf _).2 hend)
  rw [scan_scan, ← hmid] at hframe
  rw [runSteps_add hgarbage, ← hsize]
  exact hframe

/-- Settles O32: without an inner end marker, and within the cap, the frame waits until its last byte
(`waits_sentinel`). -/
theorem sentinelServesFrameWithoutInnerEndMarker :
    Obligations.SentinelServesFrameWithoutInnerEndMarker := by
  intro s m rest hs hb hf hwf hinner hcap hi t
  refine ⟨?_, step_of_frame rfl hwf rfl⟩
  obtain ⟨mid, hmid, hsize⟩ := exists_inner_bytes hwf
  have hm : etx ∉ mid := by simpa [hmid] using hinner
  have hbelow : ∀ cap, s.cfg.accCap = some cap → mid.length + 1 < cap := fun cap hc => by
    have hle := hcap cap hc
    omega
  have hrun := runSteps_candidate hs (hmid ▸ hi) (waits_sentinel hf hm hbelow)
    ((ends_sentinel_append hf _ _).2 rfl)
  rw [← hmid, hsize] at hrun
  exact hrun

/-- A frame cut before its last byte, between markers, is shorter than its header says. -/
theorem decode_cut_frame {m : Message} (hwf : m.wf = true) {front back : List Byte}
    (hframe : frameBytes m = stx :: front ++ etx :: back) (hback : back ≠ []) (x : Excess) :
    decode x (stx :: front ++ [etx]) = .err .frameTooShort := by
  obtain ⟨-, -, hlen, hdata, -⟩ := m.wf_iff.1 hwf
  have hsize := congrArg List.length hframe
  have hpos := List.length_pos_iff.2 hback
  rw [frameBytes_length, hdata] at hsize
  simp only [List.length_append, List.length_cons] at hsize
  match front with
  | [] => exact decode_below_floor x (by decide)
  | [h1] => exact decode_below_floor x (Nat.lt_succ_self 3)
  | h1 :: h2 :: body =>
    have hh2 : packH2 m.io m.rw m.length = h2 := by
      rw [frameBytes_eq] at hframe
      simp only [List.cons_append, List.cons.injEq] at hframe
      exact hframe.2.2.1
    refine (decode_of_markers x h1 h2 (body ++ [etx]) (by simp) List.getLast?_concat).trans ?_
    apply decodeBody_short
    rw [← hh2, (h2_packH2 m.io m.rw hlen).2.2]
    simp at hsize ⊢
    omega

/-- Settles O33: up to its first inner end marker the frame waits (`waits_sentinel`), and what is cut off
there is too short (`decode_cut_frame`). -/
theorem sentinelCutsFrameAtInnerEndMarker : Obligations.SentinelCutsFrameAtInnerEndMarker := by
  intro s m front back rest hs hb hf hwf hframe hback hfront hcap hi
  refine ⟨?_, decode_cut_frame hwf hframe hback⟩
  have hi' : s.inputs = rxAll (stx :: front ++ [etx]) ++ (rxAll back ++ rest) := by
    simp [hi, hframe, rxAll]
  exact runSteps_candidate hs hi' (waits_sentinel hf hfront hcap) ((ends_sentinel_append hf _ _).2 rfl)

/-- The first three bytes of a candidate fix how many of the bytes received it takes. -/
theorem expectedLength_take {b0 b1 b2 : Byte} {more : List Byte} (h : more.length = 65) :
    expectedLength (b0 :: (b1 :: b2 :: more).take (4 + (h2Length b2).toNat)) =
      some (b0 :: (b1 :: b2 :: more).take (4 + (h2Length b2).toNat)).length := by
  have hrange := h2Length_range b2
  rw [show 4 + (h2Length b2).toNat = (h2Length b2).toNat + 2 + 1 + 1 by omega]
  simp only [List.take_succ_cons, expectedLength, List.length_cons, List.length_take, h]
  congr 1
  omega

/-- Settles O34: the header's length gives the candidate (`expectedLength_take`), at most 67 bytes after
the start marker; it waits until its last byte (`waits_lengthAware`). -/
theorem lengthAwareCandidateCompletesWithin67Bytes :
    Obligations.LengthAwareCandidateCompletesWithin67Bytes := by
  intro s bytes rest hs hf hlen hi
  match bytes, hlen with
  | b1 :: b2 :: more, hlen =>
    have hmore : more.length = 65 := by simpa using hlen
    have hrange := h2Length_range b2
    have hend := expectedLength_take (b0 := stx) (b1 := b1) (b2 := b2) hmore
    generalize hn : 4 + (h2Length b2).toNat = n at hend
    have hne : (b1 :: b2 :: more).take n ≠ [] := by
      simp
      omega
    have hsize : ((b1 :: b2 :: more).take n).length = n := by
      rw [List.length_take, hlen]
      omega
    obtain ⟨mid, last, hcand⟩ : ∃ mid last, (b1 :: b2 :: more).take n = mid ++ [last] :=
      ⟨_, _, (List.dropLast_concat_getLast hne).symm⟩
    have hi' : s.inputs =
        rxAll (stx :: mid ++ [last]) ++ (rxAll ((b1 :: b2 :: more).drop n) ++ rest) := by
      have hsplit : b1 :: b2 :: more = mid ++ [last] ++ (b1 :: b2 :: more).drop n := by
        rw [← hcand, List.take_append_drop]
      have hall := hi.trans (congrArg (fun xs => .rxByte stx :: rxAll xs ++ rest) hsplit)
      simpa [rxAll] using hall
    rw [hcand] at hend hsize
    have hrun := runSteps_candidate hs hi' (waits_lengthAware hf hend)
      ((ends_lengthAware hf _).2 hend)
    refine ⟨mid.length + 2, _, ?_, hrun, rfl, ?_⟩
    · simp at hsize
      omega
    · show stx :: (mid ++ [last]) = stx :: (b1 :: b2 :: more).take (mid ++ [last]).length
      rw [hsize, hcand]

end Sys2Proof.Machine
end

section
/-!
Steps of the whole machine: the events a processing can emit (60_exceptions.md R245 to R251,
42_dispatch.md R210), what a step takes of the inputs (20_memory.md R62), and what it reads and writes of
the GPIO copy and the trace (10_state.md R45, R46). The last follows from `step_withPast`: every step is
the step of its block's closed machine with the machine's past put under it.
-/

namespace Sys2Proof.Machine

/-- A step in Complete that answers: the decoded request was executed or the decode error taken. -/
theorem step_complete_cases {s t : State} (hs : s.phase = .complete) (h : step s = .next t) :
    ∃ u, t = toScanning u ∧
      ((∃ m, decode s.cfg.decodeExcess s.buf = .ok m ∧
          exec (Instr.ofMessage m) (writeOutcome (.ok m) s) = .next u) ∨
        (∃ k, decode s.cfg.decodeExcess s.buf = .err k ∧
          onDecodeError k (writeOutcome (.err k) s) = .next u)) := by
  cases hd : decode s.cfg.decodeExcess s.buf with
  | ok m =>
    rw [step_of_decode_ok hs hd] at h
    obtain ⟨u, hu, rfl⟩ := mapNext_eq_next h
    exact ⟨u, rfl, .inl ⟨m, rfl, hu⟩⟩
  | err k =>
    rw [step_of_decode_err hs hd] at h
    obtain ⟨u, hu, rfl⟩ := mapNext_eq_next h
    exact ⟨u, rfl, .inr ⟨k, rfl, hu⟩⟩

/-! ### Taking a decode error -/

theorem onDecodeError_none {s : State} {k : DecodeError} (h : diagFor s.cfg k = none) :
    onDecodeError k s = .next (emit .signalError s) := by
  simp [onDecodeError, h]

theorem onDecodeError_some {s : State} {k : DecodeError} {d : Message}
    (h : diagFor s.cfg k = some d) : onDecodeError k s = transmitMsg d (emit .signalError s) := by
  simp [onDecodeError, h]

/-- Settles O38: the signal (`emit_clear`), then the diagnostic frame of a well-formed Message
(`transmit_clear`). -/
theorem decodeErrorSignalsAndReports : Obligations.DecodeErrorSignalsAndReports := by
  intro s k hs hr hc hd
  have hclear := emit_clear (s := writeOutcome (.err k) s) hr .signalError
  rw [step_of_decode_err hs hd]
  refine ⟨fun hdiag => ?_, fun d hdiag => ⟨_, .refl _, ?_⟩⟩
  · rw [onDecodeError_none (s := writeOutcome (.err k) s) hdiag, hclear]
    rfl
  · have hsend := transmit_clear (s := record .signalError (writeOutcome (.err k) s)) hr (frameBytes d)
    rw [onDecodeError_some (s := writeOutcome (.err k) s) hdiag, hclear,
      transmitMsg_of_wf (configOk_diag hc hdiag), hsend, record_trace, List.append_assoc]
    rfl

theorem onDecodeError_not_isGpio {k : DecodeError} {s t : State} (h : onDecodeError k s = .next t) :
    ∃ es, Emits s t es ∧ ∀ e ∈ es, e.isGpio = false := by
  obtain ⟨-, he⟩ | ⟨d, bytes, reply, -, -, -, he⟩ := onDecodeError_emits h
  · exact ⟨_, he, by simp [Event.isGpio]⟩
  · exact ⟨_, he, List.forall_mem_cons.2 ⟨rfl, answer_not_isGpio bytes reply⟩⟩

theorem onDecodeError_levelDraws {k : DecodeError} {s t : State} (h : onDecodeError k s = .next t) :
    t.levelDraws = s.levelDraws := by
  unfold onDecodeError at h
  split at h
  next =>
    cases h
    exact emit_levelDraws ..
  next d hd =>
    obtain ⟨bytes, -, rfl⟩ := transmitMsg_next h
    rw [transmit_levelDraws, emit_levelDraws]

/-- Settles O39: the events of a decode error are signals and a frame (`onDecodeError_not_isGpio`). -/
theorem decodeErrorCausesNoGpioEvent : Obligations.DecodeErrorCausesNoGpioEvent := by
  intro s t k hs hd h
  rw [step_of_decode_err hs hd] at h
  obtain ⟨u, hu, rfl⟩ := mapNext_eq_next h
  obtain ⟨es, he, hes⟩ := onDecodeError_not_isGpio hu
  obtain ⟨hpins, htrace⟩ := he.no_gpio hes
  exact ⟨hpins, (onDecodeError_levelDraws hu).trans (writeOutcome_levelDraws ..), htrace⟩

/-! ### How many events a candidate can cause -/

/-- At most `n` events, two of them signals and one a `TxWrite`. -/
structure EventBound (n : Nat) (es : List Event) : Prop where
  length  : es.length ≤ n
  signals : es.countP (fun e => e = .signalError) ≤ 2
  frames  : es.countP Event.isTx ≤ 1

theorem cut_sublist (b : Option Nat) (es : List Event) : (cut b es).Sublist es := by
  cases b with
  | none => exact .refl es
  | some k => exact List.take_sublist k es

/-- A reset that cuts the events keeps the bounds. -/
theorem EventBound.cut {n : Nat} {es : List Event} (h : EventBound n es) (b : Option Nat) :
    EventBound n (cut b es) :=
  have hsub := cut_sublist b es
  ⟨Nat.le_trans hsub.length_le h.length, Nat.le_trans hsub.countP_le h.signals,
    Nat.le_trans hsub.countP_le h.frames⟩

theorem countP_isTx_eq_zero {es : List Event} (h : ∀ e ∈ es, e.isTx = false) :
    es.countP Event.isTx = 0 :=
  List.countP_eq_zero.2 fun e he => by simp [h e he]

theorem failSignal_length_le (reply : TxReply) : (failSignal reply).length ≤ 1 := by
  cases reply <;> simp [failSignal]

/-- An answer adds at most two events, one of them a signal. -/
theorem eventBound_answer {n : Nat} {pre : List Event} (hlen : pre.length ≤ n)
    (hsig : pre.countP (fun e => e = .signalError) ≤ 1) (htx : ∀ e ∈ pre, e.isTx = false)
    (bytes : List Byte) (reply : TxReply) :
    EventBound (n + 2) (pre ++ .txWrite bytes reply :: failSignal reply) := by
  have hfail := failSignal_length_le reply
  refine ⟨?_, ?_, ?_⟩
  · rw [List.length_append, List.length_cons]
    omega
  · have hfailSig := (failSignal reply).countP_le_length (p := fun e => decide (e = .signalError))
    rw [List.countP_append, List.countP_cons_of_neg (by simp)]
    omega
  · rw [List.countP_append, countP_isTx_eq_zero htx, List.countP_cons,
      countP_isTx_eq_zero (failSignal_not_isTx reply)]
    exact Nat.le_refl 1

theorem exec_eventBound {i : Instr} {s t : State} (h : exec i s = .next t) :
    ∃ es, Emits s t es ∧ EventBound 4 es := by
  cases i with
  | read v p io data =>
    obtain ⟨level, bytes, reply, he⟩ := execRead_emits (data := data) h
    exact ⟨_, he, eventBound_answer (by simp) (by simp) (by simp [Event.isTx]) bytes reply⟩
  | writeOn v p io rest =>
    obtain ⟨bytes, reply, he⟩ := execWriteOn_emits (rest := rest) h
    refine ⟨_, he, eventBound_answer ?_ ?_ (configureForWrite_set_not_isTx _ p io rfl) bytes reply⟩
    all_goals cases s.cfg.writeConfigure <;> simp
  | writeOff v p io rest =>
    obtain ⟨bytes, reply, he⟩ := execWriteOff_emits (rest := rest) h
    refine ⟨_, he, eventBound_answer ?_ ?_ (configureForWrite_set_not_isTx _ p io rfl) bytes reply⟩
    all_goals cases s.cfg.writeConfigure <;> simp
  | writeInvalid v p io d0 rest =>
    obtain ⟨bytes, reply, he⟩ := execWriteInvalid_emits (d0 := d0) (rest := rest) h
    exact ⟨_, he, eventBound_answer (by simp) (by simp) (by simp [Event.isTx]) bytes reply⟩
  | writeNodata v p io =>
    obtain ⟨bytes, reply, he⟩ := execWriteNodata_emits h
    exact ⟨_, he, eventBound_answer (pre := []) (by simp) (by simp) (by simp) bytes reply⟩

theorem onDecodeError_eventBound {k : DecodeError} {s t : State} (h : onDecodeError k s = .next t) :
    ∃ es, Emits s t es ∧ EventBound 3 es := by
  obtain ⟨-, he⟩ | ⟨d, bytes, reply, -, -, -, he⟩ := onDecodeError_emits h
  · exact ⟨_, he, by simp, by simp, by simp [Event.isTx]⟩
  · exact ⟨_, he, eventBound_answer (pre := [.signalError]) (n := 1) (by simp) (by simp)
      (by simp [Event.isTx]) bytes reply⟩

/-- Settles O41: the bounds of a command's events (`exec_eventBound`) and of a decode error's
(`onDecodeError_eventBound`), which a reset does not raise (`EventBound.cut`). -/
theorem eventsPerFrameAreBounded : Obligations.EventsPerFrameAreBounded := by
  intro s t hs h
  obtain ⟨u, rfl, ⟨m, hd, hu⟩ | ⟨k, hd, hu⟩⟩ := step_complete_cases hs h
  · obtain ⟨es, he, hes⟩ := exec_eventBound hu
    obtain ⟨hlen, hsig, htx⟩ := hes.cut (pendingReset s.inputs)
    exact ⟨_, he.trace, hlen, hsig, htx, fun k hk => by rw [hd] at hk; cases hk⟩
  · obtain ⟨es, he, hes⟩ := onDecodeError_eventBound hu
    obtain ⟨hlen, hsig, htx⟩ := hes.cut (pendingReset s.inputs)
    exact ⟨_, he.trace, Nat.le_trans hlen (by decide), hsig, htx, fun _ _ => hlen⟩

/-! ### Every request is answered once -/

/-- From `s` to `t` the request `m` was answered: events without a frame, then the frame of a
well-formed response with the request's header fields and a payload (42_dispatch.md R210). -/
def Answers (m : Message) (s t : State) : Prop :=
  ∃ (pre : List Event) (r : Message) (reply : TxReply),
    Emits s t (pre ++ .txWrite (frameBytes r) reply :: failSignal reply) ∧
    (∀ e ∈ pre, e.isTx = false) ∧ r.wf = true ∧
    r.version = m.version ∧ r.pin = m.pin ∧ r.io = m.io ∧ r.rw = m.rw ∧ r.data ≠ []

/-- A response with a payload Encode admits, after events without a frame, answers every request with
its header fields. -/
theorem respond_answers {s u t : State} {pre : List Event} (hu : Emits s u pre)
    (hpre : ∀ e ∈ pre, e.isTx = false) {v : Version} {p : Pin} {io : Io} {rw : Rw}
    {payload : List Byte} (hne : payload ≠ []) (hlen : payload.length ≤ 63)
    (h : respond v p io rw payload u = .next t) (data : List Byte) :
    Answers (mkMessage v p io rw data) s t := by
  obtain ⟨bytes, reply, hb, -, ht⟩ := respond_emits h
  rw [respFor, encodeMsg_mkMessage v p io rw hlen] at hb
  cases hb
  exact ⟨pre, _, reply, hu.trans ht, hpre, mkMessage_wf v p io rw hlen, rfl, rfl, rfl, rfl, hne⟩

theorem configOk_acks_ne_nil {c : Config} (h : configOk c = true) : c.ackHigh ≠ [] ∧ c.ackLow ≠ [] := by
  simp only [configOk, Bool.and_eq_true, decide_eq_true_eq] at h
  rw [← List.length_pos_iff, ← List.length_pos_iff]
  omega

theorem exec_answers {i : Instr} {s t : State} (hc : configOk s.cfg = true)
    (h : exec i s = .next t) : Answers i.request s t := by
  obtain ⟨hhigh, hlow⟩ := configOk_acks hc
  obtain ⟨hhigh', hlow'⟩ := configOk_acks_ne_nil hc
  cases i with
  | read v p io data =>
    exact respond_answers ((emit_emits (.configure p io) s).trans (callRead_emits p _))
      (by simp [Event.isTx]) (by simp) (by simp) h data
  | writeOn v p io rest =>
    exact respond_answers ((configureForWrite_emits p io s).trans (emit_emits (.setHigh p) _))
      (configureForWrite_set_not_isTx _ p io rfl) hhigh' hhigh h _
  | writeOff v p io rest =>
    exact respond_answers ((configureForWrite_emits p io s).trans (emit_emits (.setLow p) _))
      (configureForWrite_set_not_isTx _ p io rfl) hlow' hlow h _
  | writeInvalid v p io d0 rest =>
    exact respond_answers (emit_emits .signalError s) (by simp [Event.isTx]) (by decide) (by decide) h _
  | writeNodata v p io =>
    exact respond_answers (pre := []) (.refl_of rfl rfl rfl rfl rfl rfl rfl) (by simp) (by decide)
      (by decide) h _

/-- Settles O42: the request's instruction executes (`exec_complete_next`) and answers it
(`exec_answers`); Decode reads the answer back (`decode_frameBytes`). -/
theorem everyRequestIsAnsweredOnce : Obligations.EveryRequestIsAnsweredOnce := by
  intro s m hs hr hc hd
  obtain ⟨u, hu⟩ := exec_complete_next (s := writeOutcome (.ok m) s) hs hc (Instr.ofMessage m)
  have hans := exec_answers (s := writeOutcome (.ok m) s) hc hu
  rw [(instructionKeepsTheWholeRequest m (decodedMessageIsWellFormed _ _ _ hd)).2] at hans
  obtain ⟨pre, r, reply, he, hpre, hwf, hver, hpin, hio, hrw, hdata⟩ := hans
  refine ⟨toScanning u, _, frameBytes r, reply, r, ?_, he.trace_clear hr, ?_, by simp,
    fun x => decode_frameBytes x hwf, hver, hpin, hio, hrw, hdata⟩
  · rw [step_of_decode_ok hs hd, hu, mapNext_next]
  · rw [List.countP_append, countP_isTx_eq_zero hpre, List.countP_cons,
      countP_isTx_eq_zero (failSignal_not_isTx reply)]
    rfl

/-! ### What a step takes of the inputs -/

theorem react_inputs (i : Input) (s : State) : (react i s).inputs = s.inputs := by
  cases i with
  | rxByte b => exact onByte_inputs b s
  | idleTimeout =>
    show (onIdleTimeout s).inputs = s.inputs
    unfold onIdleTimeout
    split <;> rfl
  | reset k => rfl

/-- A reaction is silent or signals. -/
theorem react_trace (i : Input) (s : State) :
    (react i s).trace = s.trace ∨ (react i s).trace = s.trace ++ [.signalError] := by
  cases i with
  | rxByte b => exact onByte_trace b s
  | idleTimeout =>
    show (onIdleTimeout s).trace = s.trace ∨ (onIdleTimeout s).trace = s.trace ++ [.signalError]
    unfold onIdleTimeout
    split
    · exact .inr rfl
    · exact .inl rfl
  | reset k => exact .inl rfl

/-- Settles O53: in Complete a step emits outputs only and changes at most a pending reset's count
(`step_complete_emits_outputs`); outside it a step takes the next input and reacts (`react_trace`). -/
theorem everyInputIsTakenOnceInOrder : Obligations.EveryInputIsTakenOnceInOrder := by
  intro s t h
  by_cases hs : s.phase = .complete
  · obtain ⟨u, es, rfl, he, ho⟩ := step_complete_emits_outputs hs h
    refine ⟨[], _, by rw [List.append_nil]; exact he.trace, Nat.zero_le 1,
      List.all_eq_true.1 (cut_all_isOutput ho _), ?_, fun _ => rfl, fun hne => absurd hs hne⟩
    rw [List.nil_append, toScanning_inputs, he.inputs, countDown_map_event, writeOutcome_inputs]
  · rw [step_of_not_complete hs] at h
    cases h
    cases hi : s.inputs with
    | nil =>
      rw [takeInput_nil hi]
      exact ⟨[], [], by simp, Nat.zero_le 1, by simp, by simp [hi], fun hc => absurd hc hs,
        fun _ hne => absurd rfl hne⟩
    | cons i rest =>
      have hinputs := react_inputs i (record i.event { s with inputs := rest })
      rw [takeInput_cons hi, hinputs]
      obtain htr | htr := react_trace i (record i.event { s with inputs := rest })
      · exact ⟨[i.event], [], by simp [htr], Nat.le_refl 1, by simp, rfl, fun hc => absurd hc hs, by simp⟩
      · exact ⟨[i.event], [.signalError], by simp [htr], Nat.le_refl 1, by simp [Event.isOutput], rfl,
          fun hc => absurd hc hs, by simp⟩

/-! ### The GPIO copy and the trace -/

/-- A step that answers is a step of the block's closed machine with the machine's past under it. -/
theorem step_next_eq_withPast {s t : State} (h : step s = .next t) :
    ∃ u, step (closedMachine s.cfg s.toDraws s.inputs s.toBlock) = .next u ∧
      t = u.withPast s.pins s.trace := by
  rw [← withPast_closedMachine s, step_withPast] at h
  exact mapNext_eq_next h

/-- Settles O49: the new events are those of the closed machine, which `State.withPast` applies to the
GPIO copy in order. -/
theorem pinsFollowExactlyTheEmittedEvents : Obligations.PinsFollowExactlyTheEmittedEvents := by
  intro s t h
  obtain ⟨u, -, rfl⟩ := step_next_eq_withPast h
  exact ⟨u.trace, rfl, rfl⟩

/-- Settles O50: with another past under it the closed machine makes the same step (`step_withPast`). -/
theorem blockReadsNeitherPinsNorTrace : Obligations.BlockReadsNeitherPinsNorTrace := by
  intro s t pins trace h
  obtain ⟨u, hu, rfl⟩ := step_next_eq_withPast h
  refine ⟨(u.withPast pins trace).pins, u.trace, rfl, ?_⟩
  rw [← withPast_closedMachine { s with pins := pins, trace := trace }, step_withPast]
  exact congrArg (mapNext (State.withPast pins trace)) hu

/-! ### Words placed by the host -/

/-- The data bytes of a table word's frame: `d0` and zeros, `len` in all. -/
theorem tableData_length (d0 : Byte) {len : Nat} (h : len ≤ 63) :
    (if len = 0 then [] else d0 :: List.replicate (len - 1) 0#8).length ≤ 63 := by
  split
  next => exact Nat.zero_le 63
  next =>
    rw [List.length_cons, List.length_replicate]
    omega

/-- The frame of a table word is the frame of a well-formed Message. -/
theorem tableFrame_eq_frameBytes (nbits w : Nat) :
    ∃ m : Message, m.wf = true ∧ tableFrame nbits w = frameBytes m := by
  have hrange := h2Length_range (BitVec.ofNat 8 (w % 2 ^ nbits / 256))
  refine ⟨_, mkMessage_wf _ _ _ _ (tableData_length _ ?_), rfl⟩
  split <;> omega

/-- Settles O51: the word's frame decodes to its Message under either excess setting, and the step
dispatches it (`step_of_frame`). -/
theorem fetchedWordRunsNext : Obligations.FetchedWordRunsNext := by
  intro s nbits w
  obtain ⟨m, hwf, hframe⟩ := tableFrame_eq_frameBytes nbits w
  refine ⟨Instr.ofMessage m, m, ?_, rfl, step_of_frame rfl hwf hframe⟩
  have hinstr := (decodeInstr_eq_ok_iff .ignore (tableFrame nbits w) (Instr.ofMessage m)).2
    ⟨m, hframe ▸ decode_frameBytes .ignore hwf, rfl⟩
  simp [decodeTableWord, hinstr]

end Sys2Proof.Machine
end

section
/-!
Two runs of one processing (70_reset_and_hazards.md R271, 60_exceptions.md R244). A relation between the
states of two runs that the shared operations keep (`Simulation`) is kept by the whole processing. It is
used twice: an idle timeout before the inputs only stays there, and a run that a reset interrupts emits
the first events of the run that none does (`Interrupted`).
-/

namespace Sys2Proof.Machine

/-! ### Simulations -/

/-- The operations of a processing keep the relation between two runs, which agree on what decides the
next operation. -/
structure Simulation (R : State → State → Prop) : Prop where
  phase     : ∀ {a b}, R a b → b.phase = a.phase
  cfg       : ∀ {a b}, R a b → b.cfg = a.cfg
  writeResp : ∀ {a b} (m : Message), R a b → R (writeResp m a) (writeResp m b)
  emit      : ∀ {a b} (e : Event), R a b → R (emit e a) (emit e b)
  callRead  : ∀ {a b} (p : Pin), R a b → R (callRead p a) (callRead p b)
  transmit  : ∀ {a b} (bytes : List Byte), R a b → R (transmit bytes a) (transmit bytes b)

/-- Two outcomes of the same kind: related next states, or the same stop. -/
inductive Related (R : State → State → Prop) :
    Host.Outcome State Fault Refusal → Host.Outcome State Fault Refusal → Prop
  | next {a b : State} (h : R a b) : Related R (.next a) (.next b)
  | fault (f : Fault) : Related R (.fault f) (.fault f)
  | refused (r : Refusal) : Related R (.refused r) (.refused r)

/-- The relation of two states after the return to Scanning. -/
def AfterToScanning (R : State → State → Prop) (a b : State) : Prop :=
  ∃ u v, R u v ∧ a = toScanning u ∧ b = toScanning v

theorem Related.mapNext_toScanning {R : State → State → Prop}
    {o o' : Host.Outcome State Fault Refusal} (h : Related R o o') :
    Related (AfterToScanning R) (mapNext toScanning o) (mapNext toScanning o') := by
  cases h with
  | next h => exact .next ⟨_, _, h, rfl, rfl⟩
  | fault f => exact .fault f
  | refused r => exact .refused r

@[simp] theorem nextLevel_emit (e : Event) (s : State) : nextLevel (emit e s) = nextLevel s := by
  simp [nextLevel]

section Processing

variable {R : State → State → Prop} (sim : Simulation R) {a b : State}
include sim

theorem Simulation.transmitMsg (m : Message) (h : R a b) :
    Related R (transmitMsg m a) (transmitMsg m b) := by
  unfold Machine.transmitMsg
  split
  · exact .next (sim.transmit _ h)
  · exact .refused _

theorem Simulation.send (h : R a b) (hresp : b.resp = a.resp) : Related R (send a) (send b) := by
  have hread : readResp b = readResp a := by rw [readResp, readResp, sim.phase h, hresp]
  unfold Machine.send
  rw [hread]
  split
  · exact sim.transmitMsg _ h
  · exact .fault _

theorem Simulation.respond (v : Version) (p : Pin) (io : Io) (rw : Rw) (payload : List Byte)
    (h : R a b) : Related R (respond v p io rw payload a) (respond v p io rw payload b) :=
  sim.send (sim.writeResp _ h) rfl

theorem Simulation.configureForWrite (p : Pin) (io : Io) (h : R a b) :
    R (configureForWrite p io a) (configureForWrite p io b) := by
  unfold Machine.configureForWrite
  rw [sim.cfg h]
  split
  · exact sim.emit _ h
  · exact h

/-- Every command keeps the relation, from two states whose next GPIO read returns the same level. -/
theorem Simulation.exec (i : Instr) (h : R a b) (hlevel : nextLevel b = nextLevel a) :
    Related R (exec i a) (exec i b) := by
  cases i with
  | read v p io data =>
    simp only [exec_read, execRead, nextLevel_emit, hlevel]
    exact sim.respond v p io .read _ (sim.callRead p (sim.emit _ h))
  | writeOn v p io rest =>
    simp only [exec_writeOn, execWriteOn, sim.cfg h]
    exact sim.respond v p io .write _ (sim.emit _ (sim.configureForWrite p io h))
  | writeOff v p io rest =>
    simp only [exec_writeOff, execWriteOff, sim.cfg h]
    exact sim.respond v p io .write _ (sim.emit _ (sim.configureForWrite p io h))
  | writeInvalid v p io d0 rest => exact sim.respond v p io .write _ (sim.emit _ h)
  | writeNodata v p io => exact sim.respond v p io .write _ h

theorem Simulation.onDecodeError (k : DecodeError) (h : R a b) :
    Related R (onDecodeError k a) (onDecodeError k b) := by
  unfold Machine.onDecodeError
  rw [sim.cfg h]
  split
  · exact .next (sim.emit _ h)
  · exact sim.transmitMsg _ (sim.emit _ h)

/-- A step in Complete keeps the relation, from two states with the same candidate. -/
theorem Simulation.step (ha : a.phase = .complete) (h : ∀ r, R (writeOutcome r a) (writeOutcome r b))
    (hbuf : b.buf = a.buf) (hlevel : nextLevel b = nextLevel a) :
    Related (AfterToScanning R) (step a) (step b) := by
  have hstart := h (decode a.cfg.decodeExcess a.buf)
  have hcfg : b.cfg = a.cfg := (sim.cfg hstart :)
  have hb : b.phase = .complete := (sim.phase hstart).trans ha
  have hdec : decode b.cfg.decodeExcess b.buf = decode a.cfg.decodeExcess a.buf := by rw [hcfg, hbuf]
  cases hd : decode a.cfg.decodeExcess a.buf with
  | ok m =>
    rw [step_of_decode_ok ha hd, step_of_decode_ok hb (hdec.trans hd)]
    exact (sim.exec (Instr.ofMessage m) (h (.ok m)) hlevel).mapNext_toScanning
  | err k =>
    rw [step_of_decode_err ha hd, step_of_decode_err hb (hdec.trans hd)]
    exact (sim.onDecodeError k (h (.err k))).mapNext_toScanning

end Processing

/-! ### An idle timeout before the inputs -/

/-- The state with one more idle timeout before its inputs. -/
def State.withTimeout (s : State) : State := { s with inputs := .idleTimeout :: s.inputs }

theorem emit_withTimeout (e : Event) (s : State) : emit e s.withTimeout = (emit e s).withTimeout := by
  by_cases h : resetDue s = true
  · rw [emit_due h]
    exact emit_due (s := s.withTimeout) h e
  · have h' : ¬ resetDue s.withTimeout = true := h
    rw [emit, emit, if_neg h, if_neg h']
    rfl

theorem callRead_withTimeout (p : Pin) (s : State) :
    callRead p s.withTimeout = (callRead p s).withTimeout := by
  have hlevel : nextLevel s.withTimeout = nextLevel s := rfl
  have hdue : resetDue s.withTimeout = resetDue s := rfl
  rw [callRead, callRead, hdue, hlevel, emit_withTimeout]
  split <;> rfl

theorem transmit_withTimeout (bytes : List Byte) (s : State) :
    transmit bytes s.withTimeout = (transmit bytes s).withTimeout := by
  have hreply : ∀ n, nextReply n s.withTimeout = nextReply n s := fun _ => rfl
  have hdue : resetDue s.withTimeout = resetDue s := rfl
  have hcall : callTx bytes s.withTimeout = (callTx bytes s).withTimeout := by
    rw [callTx, callTx, hdue, hreply, emit_withTimeout]
    split <;> rfl
  rw [transmit, transmit, hreply, hcall]
  split
  · rfl
  · exact emit_withTimeout ..

theorem simulation_withTimeout : Simulation fun a b => b = a.withTimeout where
  phase := fun h => by rw [h]; rfl
  cfg := fun h => by rw [h]; rfl
  writeResp := fun m h => by rw [h]; rfl
  emit := fun e h => by rw [h, emit_withTimeout]
  callRead := fun p h => by rw [h, callRead_withTimeout]
  transmit := fun bytes h => by rw [h, transmit_withTimeout]

/-- Settles O54: the timeout stays before the inputs all through the processing
(`simulation_withTimeout`). -/
theorem idleTimeoutInCompleteChangesNothing : Obligations.IdleTimeoutInCompleteChangesNothing := by
  intro s hs
  have hrel := simulation_withTimeout.step (b := s.withTimeout) hs (fun _ => rfl) rfl rfl
  show step s.withTimeout = mapNext State.withTimeout (step s)
  generalize step s = o at hrel ⊢
  generalize step s.withTimeout = o' at hrel ⊢
  cases hrel with
  | next h =>
    obtain ⟨u, v, rfl, rfl, rfl⟩ := h
    rfl
  | fault f => rfl
  | refused r => rfl

/-! ### A reset after k events -/

/-- Two runs of a processing that began with the trace `base`: `a`, with no input to come, emitted `es`;
`b`, with a reset after `k` events behind `n` idle timeouts, the first `k` of them. As long as `b` was not
cut it took the same draws. -/
structure Interrupted (base : List Event) (n k : Nat) (rest : List Input) (es : List Event)
    (a b : State) : Prop where
  clear  : a.inputs = []
  whole  : a.trace = base ++ es
  begun  : b.trace = base ++ es.take k
  inputs : b.inputs = List.replicate n .idleTimeout ++ .reset (k - es.length) :: rest
  phase  : b.phase = a.phase
  cfg    : b.cfg = a.cfg
  draws  : es.length ≤ k → b.toDraws = a.toDraws

section Interrupted

variable {base : List Event} {n k : Nat} {rest : List Input} {es : List Event} {a b : State}

theorem Interrupted.pendingReset (h : Interrupted base n k rest es a b) :
    pendingReset b.inputs = some (k - es.length) := by
  rw [h.inputs, pendingReset_timeouts]

/-- What both runs emit next, where `b` may still emit, continues the relation. -/
theorem Interrupted.emits (h : Interrupted base n k rest es a b) {a' b' : State}
    {fs gs : List Event} (ha : Emits a a' fs) (hb : Emits b b' gs) (heq : es.length < k → gs = fs)
    (hdraws : es.length + fs.length ≤ k → b'.toDraws = a'.toDraws) :
    Interrupted base n k rest (es ++ fs) a' b' := by
  have htake : gs.take (k - es.length) = fs.take (k - es.length) := by
    by_cases hk : es.length < k
    · rw [heq hk]
    · rw [Nat.sub_eq_zero_of_le (Nat.not_lt.1 hk), List.take_zero, List.take_zero]
  have hcount : k - es.length - gs.length = k - (es ++ fs).length := by
    rw [List.length_append]
    by_cases hk : es.length < k
    · rw [heq hk, Nat.sub_sub]
    · omega
  refine ⟨?_, ?_, ?_, ?_, ?_, ?_, fun hle => hdraws (by simpa using hle)⟩
  · rw [ha.inputs, h.clear]; rfl
  · rw [ha.trace, h.clear, h.whole, List.append_assoc]; rfl
  · rw [hb.trace, h.pendingReset, h.begun, cut, htake, List.take_append, List.append_assoc]
  · rw [hb.inputs, h.inputs, countDown_timeouts, hcount]
  · rw [hb.phase, ha.phase, h.phase]
  · rw [hb.cfg, ha.cfg, h.cfg]

theorem Interrupted.not_due_whole (h : Interrupted base n k rest es a b) : resetDue a = false := by
  rw [resetDue, h.clear]; rfl

theorem Interrupted.not_due_cut (h : Interrupted base n k rest es a b) (hk : es.length < k) :
    resetDue b = false := by
  have hne : k - es.length ≠ 0 := by omega
  simp [resetDue, h.pendingReset, hne]

end Interrupted

/-! ### The draws of the two calls, where no reset is due -/

theorem emit_toDraws (e : Event) (s : State) : (emit e s).toDraws = s.toDraws := by
  unfold emit
  split <;> rfl

theorem callRead_toDraws {s : State} (h : resetDue s = false) (p : Pin) :
    (callRead p s).toDraws = ⟨s.levelDraws.tail, s.txDraws, s.drawCount + 1⟩ := by
  simp [callRead, h]

theorem transmit_toDraws {s : State} (h : resetDue s = false) (bytes : List Byte) :
    (transmit bytes s).toDraws = ⟨s.levelDraws, s.txDraws.tail, s.drawCount + 1⟩ := by
  have hcall : (callTx bytes s).toDraws = ⟨s.levelDraws, s.txDraws.tail, s.drawCount + 1⟩ := by
    simp [callTx, h]
  unfold transmit onWriteFail
  split
  · exact hcall
  · rw [emit_toDraws, hcall]

theorem nextLevel_congr {a b : State} (h : b.toDraws = a.toDraws) : nextLevel b = nextLevel a :=
  congrArg (fun d : Draws => d.levelDraws.head?.getD (Config.freeLevel d.drawCount)) h

theorem nextReply_congr {a b : State} (h : b.toDraws = a.toDraws) (len : Nat) :
    nextReply len b = nextReply len a :=
  congrArg (fun d : Draws => boundReply len (d.txDraws.head?.getD (Config.freeTxReply d.drawCount))) h

theorem simulation_interrupted (base : List Event) (n k : Nat) (rest : List Input) :
    Simulation fun a b => ∃ es, Interrupted base n k rest es a b where
  phase := fun ⟨_, h⟩ => h.phase
  cfg := fun ⟨_, h⟩ => h.cfg
  writeResp := fun _ ⟨es, h⟩ => ⟨es, h.clear, h.whole, h.begun, h.inputs, h.phase, h.cfg, h.draws⟩
  emit := fun {a b} e ⟨es, h⟩ => ⟨_, h.emits (emit_emits e a) (emit_emits e b) (fun _ => rfl)
    fun hle => by
      rw [emit_toDraws, emit_toDraws]
      exact h.draws (by omega)⟩
  callRead := fun {a b} p ⟨es, h⟩ => ⟨_, h.emits (callRead_emits p a) (callRead_emits p b)
    (fun hk => by rw [nextLevel_congr (h.draws (Nat.le_of_lt hk))])
    fun hle => by
      have hk : es.length < k := Nat.lt_of_succ_le hle
      have hd := h.draws (Nat.le_of_lt hk)
      rw [callRead_toDraws (h.not_due_cut hk), callRead_toDraws h.not_due_whole, hd]⟩
  transmit := fun {a b} bytes ⟨es, h⟩ => ⟨_, h.emits (transmit_emits bytes a) (transmit_emits bytes b)
    (fun hk => by rw [nextReply_congr (h.draws (Nat.le_of_lt hk))])
    fun hle => by
      have hk : es.length < k := by
        rw [List.length_cons] at hle
        omega
      have hd := h.draws (Nat.le_of_lt hk)
      rw [transmit_toDraws (h.not_due_cut hk), transmit_toDraws h.not_due_whole, hd]⟩

/-! ### After the interrupted processing -/

/-- In Scanning, idle timeouts are taken without effect, and the reset behind them too. -/
theorem runSteps_timeouts_reset {s : State} {n j : Nat} {rest : List Input} (hs : s.phase = .scanning)
    (hi : s.inputs = List.replicate n .idleTimeout ++ .reset j :: rest) :
    runSteps (n + 1) s = .next { s with
      inputs := rest, trace := s.trace ++ List.replicate n .idleTimeout ++ [.reset],
      phase := .scanning, buf := [], outcome := none, resp := none } := by
  induction n generalizing s with
  | zero =>
    rw [runSteps_succ (resetReturnsToScanningSilently s j rest (by simp [hs]) hi)]
    simp [runSteps_zero]
  | succ n ih =>
    have hstep := (idleTimeoutAbandonsTheCandidate s _ (by simp [hs]) hi).2 (.inr hs)
    have hrun := ih (s := { s with
      inputs := List.replicate n .idleTimeout ++ .reset j :: rest,
      trace := s.trace ++ [.idleTimeout] }) hs rfl
    rw [List.append_assoc s.trace] at hrun
    exact (runSteps_succ hstep _).trans hrun

/-- Settles O43: the interrupted run emits the first `k` events of the undisturbed one
(`simulation_interrupted`), and the timeouts and the reset are taken in Scanning
(`runSteps_timeouts_reset`). -/
theorem interruptedProcessingEmitsAPrefix : Obligations.InterruptedProcessingEmitsAPrefix := by
  intro s t es n k rest hs hstep htrace
  have hstart : ∀ r, Interrupted s.trace n k rest [] (writeOutcome r { s with inputs := [] })
      (writeOutcome r { s with inputs := List.replicate n .idleTimeout ++ .reset k :: rest }) :=
    fun r => ⟨rfl, by simp, by simp, rfl, rfl, rfl, fun _ => rfl⟩
  have hrel := (simulation_interrupted s.trace n k rest).step (a := { s with inputs := [] })
    (b := { s with inputs := List.replicate n .idleTimeout ++ .reset k :: rest }) hs
    (fun r => ⟨[], hstart r⟩) rfl rfl
  rw [hstep] at hrel
  generalize hu : step { s with inputs := List.replicate n .idleTimeout ++ .reset k :: rest } = o at hrel
  cases hrel with
  | next h =>
    obtain ⟨u, v, ⟨es', h⟩, rfl, rfl⟩ := h
    obtain rfl : es' = es := List.append_cancel_left (h.whole.symm.trans htrace)
    refine ⟨toScanning v, rfl, h.begun, rfl, rfl, ?_⟩
    exact runSteps_timeouts_reset rfl h.inputs

end Sys2Proof.Machine
end
